-- ==== Sys2Proof/Config.lean ====
section
/-! DEFINITION. The construction-time parameters of the block (spec 00 R6, R8, R9). They are fixed while the block
exists; `State.cfg` holds them, so that a claim about every state is a claim about every block. -/

namespace Sys2Proof

/-- `RADIX`, a two-valued parameter: no other value can be written (00 R6, decision D14). -/
inductive Radix where
  | r4
  | r8
deriving DecidableEq, Repr

/-- The parameters chosen when a block is built. -/
structure Config where
  /-- `RADIX` (00 R6). -/
  radix : Radix
  /-- `OPERAND_BITS`: `none` is `unbounded`; a number is at least 1 (00 R8). -/
  operandBits : Option Nat
deriving DecidableEq, Repr

/-- The block that `State.reset` describes: `OPERAND_BITS` at the spec's default (00 R8), and `RADIX`
at radix-4, which is a DESIGN CHOICE of the model (log 1): the spec gives `RADIX` no default. -/
def Config.standard : Config := { radix := .r4, operandBits := none }

end Sys2Proof
end

