-- ==== Sys2Proof/Word.lean ====
section
/-! DEFINITION. The plain words of the block: bit vectors, function codes, request tags (spec 00 R10, R14; 30 R60, R61). -/

namespace Sys2Proof

/-- A bit vector, least significant bit first: element `k` is `B[k]`, the last element is the sign
bit (00 R10, 20 R44). A bit vector of the spec has at least one bit; `WellFormed.lean` checks it. The
emitted bits of a sum that is still running may be empty (10 R26). -/
abbrev Bits := List Bool

/-- A function code, `fn[3:0]` (30 R61). -/
abbrev FnCode := BitVec 4

/-- A request's tag: an identifier the block copies and never interprets (30 R60). Its width is not
given; a natural number is the model's choice (log 7). -/
abbrev Tag := Nat

end Sys2Proof
end

