-- ==== Sys2Proof/Syntax.lean ====
section
/-! DEFINITION. Requests as they are presented, and `Instr`, the decoded request: one constructor per row of
spec/opcode_table.json (spec 30 R60 to R65). -/

namespace Sys2Proof

/-- The two request interfaces (30 R63). -/
inductive Interface where
  | external
  | subBlock
deriving DecidableEq, Repr

/-- The five operand formats (30 R65). -/
inductive Format where
  | fMul
  | fEnc
  | fBv
  | fPp
  | fCpa
deriving DecidableEq, Repr

/-- The operand fields of a request, by format, in the order of 30 R65. -/
inductive Fields where
  /-- `F_MUL`: multiplicand, multiplier, operand width and split. -/
  | mul (x y n : Int)
  /-- `F_ENC`: value, requested width. -/
  | enc (v w : Int)
  /-- `F_BV`: a bit vector. -/
  | bv (B : Bits)
  /-- `F_PP`: multiplicand, digit, group index, result width. -/
  | pp (x d i rw : Int)
  /-- `F_CPA`: partial products, number of columns or split. -/
  | cpa (pps : List Bits) (t : Int)
deriving DecidableEq, Repr

/-- A request as presented: tag, function code, operand fields (30 R60). -/
structure Request where
  tag : Tag
  fn : FnCode
  fields : Fields
deriving DecidableEq, Repr

/-- The eight functions of 30 R62, by name. -/
inductive Opcode where
  | mulFull
  | mulTrunc
  | bvEncode
  | bvDecode
  | boothDigits
  | ppGen
  | cpaFull
  | cpaTrunc
deriving DecidableEq, Repr

/-- A decoded request: its function with the fields the function's format gives it, and its tag. -/
inductive Instr where
  /-- `MUL.FULL x, y` (45 R172); the field `n` is carried and ignored (30 R66). -/
  | mulFull (tag : Tag) (x y n : Int)
  /-- `MUL.TRUNC x, y, n` (45 R178). -/
  | mulTrunc (tag : Tag) (x y n : Int)
  /-- `BV.ENCODE v, w` (41 R84). -/
  | bvEncode (tag : Tag) (v w : Int)
  /-- `BV.DECODE B` (41 R86). -/
  | bvDecode (tag : Tag) (B : Bits)
  /-- `BOOTH.DIGITS B` (42 R102). -/
  | boothDigits (tag : Tag) (B : Bits)
  /-- `PP.GEN x, d, i, rw` (43 R122). -/
  | ppGen (tag : Tag) (x d i rw : Int)
  /-- `CPA.FULL pps, t` (44 R143). -/
  | cpaFull (tag : Tag) (pps : List Bits) (t : Int)
  /-- `CPA.TRUNC pps, t`, the field `t` being the split (44 R144). -/
  | cpaTrunc (tag : Tag) (pps : List Bits) (t : Int)
deriving DecidableEq, Repr

end Sys2Proof
end

