-- ==== Sys2Proof/WellFormed.lean ====
section
/-! DEFINITION. What can be written at all: a bit vector has at least one bit (spec 00 R10, decision D15), and a
configuration's operand width is at least 1 (00 R8). Values that an operation answers with an error (a width below 1, a
digit out of range) are well formed: the block answers them (60 R190). -/

namespace Sys2Proof

/-- A bit vector has length at least 1 (00 R10). -/
def Bits.wf (B : Bits) : Bool := !B.isEmpty

/-- Every bit vector among the operand fields has at least one bit (30 R65). -/
def Fields.wf : Fields → Bool
  | .mul _ _ _ => true
  | .enc _ _ => true
  | .bv B => Bits.wf B
  | .pp _ _ _ _ => true
  | .cpa pps _ => pps.all Bits.wf

/-- Every bit vector among an instruction's operands has at least one bit (30 R65). -/
def Instr.wf : Instr → Bool
  | .mulFull _ _ _ _ => true
  | .mulTrunc _ _ _ _ => true
  | .bvEncode _ _ _ => true
  | .bvDecode _ B => Bits.wf B
  | .boothDigits _ B => Bits.wf B
  | .ppGen _ _ _ _ _ => true
  | .cpaFull _ pps _ => pps.all Bits.wf
  | .cpaTrunc _ pps _ => pps.all Bits.wf

/-- `OPERAND_BITS` is `unbounded` or a positive integer (00 R8). -/
def Config.wf (cfg : Config) : Bool := cfg.operandBits != some 0

end Sys2Proof
end

