-- ==== Sys2Proof/Decode.lean ====
section
/-! DEFINITION. The function codes (spec 30 R61, R62; opcode_table.json), the decoder from a presented request to `Instr`,
total and rejecting by name, and the encoder back. -/

namespace Sys2Proof

/-- Every function, in the order of 30 R62. -/
def Opcode.all : List Opcode :=
  [.mulFull, .mulTrunc, .bvEncode, .bvDecode, .boothDigits, .ppGen, .cpaFull, .cpaTrunc]

/-- The assigned function codes (30 R62). -/
def Opcode.code : Opcode → FnCode
  | .mulFull => 0x0#4
  | .mulTrunc => 0x1#4
  | .bvEncode => 0x8#4
  | .bvDecode => 0x9#4
  | .boothDigits => 0xA#4
  | .ppGen => 0xB#4
  | .cpaFull => 0xC#4
  | .cpaTrunc => 0xD#4

/-- The mnemonics (30 R62). -/
def Opcode.mnemonic : Opcode → String
  | .mulFull => "MUL.FULL"
  | .mulTrunc => "MUL.TRUNC"
  | .bvEncode => "BV.ENCODE"
  | .bvDecode => "BV.DECODE"
  | .boothDigits => "BOOTH.DIGITS"
  | .ppGen => "PP.GEN"
  | .cpaFull => "CPA.FULL"
  | .cpaTrunc => "CPA.TRUNC"

/-- The operand format a function code selects (30 R62, R70). -/
def Opcode.format : Opcode → Format
  | .mulFull => .fMul
  | .mulTrunc => .fMul
  | .bvEncode => .fEnc
  | .bvDecode => .fBv
  | .boothDigits => .fBv
  | .ppGen => .fPp
  | .cpaFull => .fCpa
  | .cpaTrunc => .fCpa

/-- The format the operand fields have. -/
def Fields.format : Fields → Format
  | .mul _ _ _ => .fMul
  | .enc _ _ => .fEnc
  | .bv _ => .fBv
  | .pp _ _ _ _ => .fPp
  | .cpa _ _ => .fCpa

/-- The function a code is assigned to; `none` for the reserved codes (30 R64). -/
def opcodeOf (fn : FnCode) : Option Opcode := Opcode.all.find? (fun op => op.code == fn)

/-- The domain bit `fn[3]`: 0 names an external operation, 1 a sub-block function (30 R61). -/
def domainBit (fn : FnCode) : Bool := fn.getLsbD 3

/-- The codes an interface accepts among the assigned ones: the external interface none with
`fn[3] = 1`, the sub-block access interface all (30 R63). -/
def Interface.offers (iface : Interface) (fn : FnCode) : Bool :=
  match iface with
  | .external => !domainBit fn
  | .subBlock => true

/-- Why a presented request is not an instruction. -/
inductive Reject where
  /-- The code is reserved, or names a sub-block function at the external interface: the block answers
  `ERR_ILLEGAL_OP` (30 R63, R64; 60 R191). -/
  | illegalOp (fn : FnCode)
  /-- The fields are not those of the format the code selects: no request of the spec (30 R60). -/
  | formatMismatch (fn : FnCode) (found : Format)
  /-- A bit-vector field of length 0: no request of the spec (00 R10, decision D15). -/
  | emptyBitVector (fn : FnCode)
deriving DecidableEq, Repr

/-- The instruction a function makes of a tag and operand fields of its format. -/
def Opcode.build (op : Opcode) (tag : Tag) (f : Fields) : Option Instr :=
  match op, f with
  | .mulFull, .mul x y n => some (.mulFull tag x y n)
  | .mulTrunc, .mul x y n => some (.mulTrunc tag x y n)
  | .bvEncode, .enc v w => some (.bvEncode tag v w)
  | .bvDecode, .bv B => some (.bvDecode tag B)
  | .boothDigits, .bv B => some (.boothDigits tag B)
  | .ppGen, .pp x d i rw => some (.ppGen tag x d i rw)
  | .cpaFull, .cpa pps t => some (.cpaFull tag pps t)
  | .cpaTrunc, .cpa pps t => some (.cpaTrunc tag pps t)
  | _, _ => none

/-- Decode a request presented at an interface. The function code is judged first, before any operand
is read (60 R191, R199). -/
def decode (iface : Interface) (r : Request) : Except Reject Instr :=
  match opcodeOf r.fn with
  | none => .error (.illegalOp r.fn)
  | some op =>
    if iface.offers r.fn then
      match op.build r.tag r.fields with
      | none => .error (.formatMismatch r.fn r.fields.format)
      | some i => if i.wf then .ok i else .error (.emptyBitVector r.fn)
    else .error (.illegalOp r.fn)

/-- The function of an instruction. -/
def Instr.opcode : Instr → Opcode
  | .mulFull _ _ _ _ => .mulFull
  | .mulTrunc _ _ _ _ => .mulTrunc
  | .bvEncode _ _ _ => .bvEncode
  | .bvDecode _ _ => .bvDecode
  | .boothDigits _ _ => .boothDigits
  | .ppGen _ _ _ _ _ => .ppGen
  | .cpaFull _ _ _ => .cpaFull
  | .cpaTrunc _ _ _ => .cpaTrunc

/-- The function code of an instruction, the transient `fn` of 10 R27. -/
def Instr.fn (i : Instr) : FnCode := i.opcode.code

/-- The tag of an instruction's request (30 R60). -/
def Instr.tag : Instr → Tag
  | .mulFull tag _ _ _ => tag
  | .mulTrunc tag _ _ _ => tag
  | .bvEncode tag _ _ => tag
  | .bvDecode tag _ => tag
  | .boothDigits tag _ => tag
  | .ppGen tag _ _ _ _ => tag
  | .cpaFull tag _ _ => tag
  | .cpaTrunc tag _ _ => tag

/-- The operand fields of an instruction, in its format (30 R65). -/
def Instr.fields : Instr → Fields
  | .mulFull _ x y n => .mul x y n
  | .mulTrunc _ x y n => .mul x y n
  | .bvEncode _ v w => .enc v w
  | .bvDecode _ B => .bv B
  | .boothDigits _ B => .bv B
  | .ppGen _ x d i rw => .pp x d i rw
  | .cpaFull _ pps t => .cpa pps t
  | .cpaTrunc _ pps t => .cpa pps t

/-- The request an instruction is presented as. -/
def encode (i : Instr) : Request := { tag := i.tag, fn := i.fn, fields := i.fields }

/-- Operand fields of zeros for a format: the integer 0, the bit vector `0b0` (a bit vector has at least
one bit, 00 R10), the empty list. -/
def Format.zeroFields : Format → Fields
  | .fMul => .mul 0 0 0
  | .fEnc => .enc 0 0
  | .fBv => .bv [false]
  | .fPp => .pp 0 0 0 0
  | .fCpa => .cpa [] 0

/-- The request whose function code is the low four bits of `w`, with tag 0 and operand fields of zeros
(for a reserved code, fields of `F_MUL`: any will do, 30 R64). The code is `fn[3:0]`; a request carries
no other bits (30 R61; log 10). -/
def Request.ofWord (w : Nat) : Request :=
  let fn := BitVec.ofNat 4 w
  { tag := 0, fn := fn, fields := ((opcodeOf fn).elim .fMul Opcode.format).zeroFields }

/-- What the decoder reads from the code `w` of an opcode-table row, at the sub-block access interface,
which offers every function (30 R63; log 10). -/
def decodeTableWord (_nbits w : Nat) : Option Instr :=
  (decode .subBlock (Request.ofWord w)).toOption

end Sys2Proof
end

