-- ==== Sys2Proof/Machine/State.lean ====
section
/-! DEFINITION. The state of the block as plain data, with its faults, its refusals and the responses it returns (spec 10;
30 R60, R67; 60 R196, R198). -/

namespace Sys2Proof.Machine

/-- The status of a response (60 R196). Codes 6 and 7 are reserved and never returned, so no
constructor stands for them. -/
inductive Status where
  | ok
  | errIllegalOp
  | errArg
  | errWidth
  | errBoothIndex
  | errDigitRange
deriving DecidableEq, Repr

/-- The integer fields of a request that `ERR_ARG` can name (60 R193, R198). -/
inductive ArgField where
  | n
  | i
  | t
deriving DecidableEq, Repr

/-- The operands that `ERR_WIDTH` can name (60 R192, R198): `x`, `y`, or the value given to `ENCODE`. -/
inductive Operand where
  | X
  | Y
  | V
deriving DecidableEq, Repr

/-- The error record of a response, one constructor per error (60 R198). -/
inductive Info where
  | illegalOp (fn : FnCode)
  | arg (field : ArgField) (value : Int)
  | width (operand : Operand) (value width : Int)
  | boothIndex (group index length : Int)
  | digitRange (group digit : Int)
deriving DecidableEq, Repr

/-- The value of a response (30 R67): an integer, a bit vector or a list of integers. -/
inductive Value where
  | int (v : Int)
  | bits (B : Bits)
  | ints (l : List Int)
deriving DecidableEq, Repr

/-- A response (30 R67). -/
structure Response where
  tag : Tag
  status : Status
  value : Option Value
  width : Option Nat
  info : Option Info
deriving DecidableEq, Repr

/-- The transient values that a step can read before they are defined (10 R27, R28): the working width
`bl` or `W`, and the partial products. The others are read only by the step their definition enables. -/
inductive Transient where
  | width
  | pps
deriving DecidableEq, Repr

/-- The ways the model stops with a fault. None is a response of the hardware. -/
inductive Fault where
  /-- Raised by `execMulFull`, `execMulTrunc` and the steps of such an operation in flight when an internal
  function raises an error (60 R200; 93 rows 2, 4, 6). Safe: the model stops. -/
  | internalError (info : Info)
  /-- Raised by a step of an operation in flight that reads a transient value not yet defined (10 R28;
  93 row 15). Safe: the model stops. -/
  | undefinedTransient (which : Transient)
  /-- Raised by `BV.DECODE`, `BOOTH.DIGITS`, `CPA.FULL` and `CPA.TRUNC` on an operand with an empty bit
  vector, and on a finished sum without a bit: a bit vector of length 0 cannot be written (00 R10,
  decision D15; log 8). Safe: the model stops. -/
  | emptyBitVector
deriving DecidableEq, Repr

/-- The ways the model refuses a step. -/
inductive Refusal where
  /-- No meaning for the instruction yet. Raised by `exec` only. Safe. -/
  | notModelled (mnemonic : String)
  /-- Raised by the sequencing of a presented request that is no request of the spec: fields of another
  format, or an empty bit vector (30 R60, 00 R10; log 9). Safe: the model stops. -/
  | malformedRequest (why : Reject)
deriving DecidableEq, Repr

/-- What a function of the block ends with: a value and its width, an error response, or a fault of
the model. -/
inductive Answer where
  | ok (value : Value) (width : Option Nat)
  | error (info : Info)
  | fault (f : Fault)
deriving DecidableEq, Repr

/-- The phase of a running sum (10 R26). -/
inductive Phase where
  | LOW
  | HIGH
deriving DecidableEq, Repr

/-- The summation state `S = (c, carry, res, phase)` (10 R26). -/
structure SumState where
  c : Nat
  carry : Nat
  res : Bits
  phase : Phase
deriving DecidableEq, Repr

/-- One operation in flight: its request and its transient values (10 R26, R27). `none` is the spec's
own state of a value not yet defined (10 R28). -/
structure Op where
  /-- The request: `fn`, `tag` and the operand fields. -/
  request : Instr
  /-- `bl` or `W`. -/
  width : Option Nat
  /-- The multiplier encoded. -/
  Y : Option Bits
  digits : Option (List Int)
  pps : Option (List Bits)
  /-- The summation state `S`. -/
  sum : Option SumState
  result : Option Int
deriving DecidableEq, Repr

/-- A launched request whose code has no function at its interface (30 R63, R64), not yet answered: its
tag and its code, and no transient value, because nothing is computed for it (log 17). -/
structure Rejected where
  tag : Tag
  fn : FnCode
deriving DecidableEq, Repr

/-- What the outside world does next (log 2, log 4, log 17). -/
inductive Input where
  /-- Present a request and wait for its response before the next input (30 R73). -/
  | request (iface : Interface) (r : Request)
  /-- Present a request beside those in flight; its operation is left in flight (20 R51), or, without a
  function, it is left to be answered (log 17). -/
  | launch (iface : Interface) (r : Request)
  /-- The operation at place `k` of those in flight takes its next internal step. -/
  | advance (k : Nat)
  /-- The request without a function at place `k` of those launched is answered (log 17). -/
  | answer (k : Nat)
  /-- Assert reset (70 R221). -/
  | reset
deriving DecidableEq, Repr

/-- What one internal step makes of an operation in flight. -/
inductive OpStep where
  | running (o : Op)
  | answered (a : Answer)
deriving DecidableEq, Repr

/-- The block and its interfaces. -/
structure State where
  /-- `RADIX` and `OPERAND_BITS` (00 R6, R8). No step changes it. -/
  cfg : Config
  /-- What the outside will present, next first. -/
  inputs : List Input
  /-- The operations in flight, oldest first (20 R51). -/
  inFlight : List Op
  /-- The launched requests without a function that are not yet answered, oldest first (log 17). -/
  rejected : List Rejected
  /-- The responses returned so far, oldest first (30 R67). -/
  responses : List Response
deriving DecidableEq, Repr

/-- A block of configuration `cfg` right after reset: idle, nothing in flight (10 R31, 70 R222). -/
def State.idle (cfg : Config) : State :=
  { cfg := cfg, inputs := [], inFlight := [], rejected := [], responses := [] }

/-- The block right after reset (70 R220 to R222). -/
def State.reset : State := State.idle Config.standard

end Sys2Proof.Machine
end

