-- ==== Sys2Proof/Machine/Flags.lean ====
section
/-! DEFINITION. The block has no flags (spec 10 R22, 60 R202). What a response reports instead of flags is its status code:
the code of each status, and the status of each error record (60 R196, R198). -/

namespace Sys2Proof.Machine

/-- The 3-bit status code (60 R196). -/
def Status.code : Status → BitVec 3
  | .ok => 0#3
  | .errIllegalOp => 1#3
  | .errArg => 2#3
  | .errWidth => 3#3
  | .errBoothIndex => 4#3
  | .errDigitRange => 5#3

/-- The status a response reports with an error record (60 R191 to R195, R198). -/
def Info.status : Info → Status
  | .illegalOp _ => .errIllegalOp
  | .arg _ _ => .errArg
  | .width _ _ _ => .errWidth
  | .boothIndex _ _ _ => .errBoothIndex
  | .digitRange _ _ => .errDigitRange

end Sys2Proof.Machine
end

