-- ==== Sys2Proof/Machine/Operands.lean ====
section
/-! DEFINITION. The parameters derived from `RADIX`, and the arithmetic on integers, widths and bit vectors that every
operand goes through (spec 00 R6, R9 to R13; 41 R80, R81; 42 R104). -/

namespace Sys2Proof.Machine

/-- The group size `g` (00 R6). -/
def groupSize : Radix → Nat
  | .r4 => 2
  | .r8 => 3

/-- The radix a number names; any other number is refused at construction (00 R6, decision D14). -/
def radixOf (n : Nat) : Option Radix :=
  if n = 4 then some .r4 else if n = 8 then some .r8 else none

/-- Membership in the digit range `DR(g)`: `-2..2` for radix-4, `-4..4` for radix-8 (42 R104). -/
def digitInRange (r : Radix) (d : Int) : Bool :=
  match r with
  | .r4 => decide (-2 ≤ d) && decide (d ≤ 2)
  | .r8 => decide (-4 ≤ d) && decide (d ≤ 4)

/-- `fits(v, w)`: `w >= 1` and `-2^(w-1) <= v <= 2^(w-1) - 1` (00 R12). -/
def fits (v w : Int) : Bool :=
  decide (1 ≤ w) && decide (-(2 ^ (w - 1).toNat) ≤ v) && decide (v ≤ 2 ^ (w - 1).toNat - 1)

/-- `bitlen(v)`, the least `k` with `|v| < 2^k` (41 R80, decision D5). -/
def bitlen (v : Int) : Nat :=
  if v = 0 then 0 else Nat.log2 v.natAbs + 1

/-- `round_up(a, g) = g * ceil(a / g)`, with `ceil(a / g) = -floor(-a / g)` (41 R81). -/
def roundUp (a : Int) (g : Nat) : Int := (g : Int) * -((-a) / (g : Int))

/-- Bit `k` of a bit vector as an integer; callers stay below its length. -/
def bitAt (B : Bits) (k : Nat) : Int := if B[k]? = some true then 1 else 0

/-- The unsigned value `sum of B[i] * 2^i` (41 R85, R86). -/
def unsignedValue : Bits → Nat
  | [] => 0
  | b :: B => b.toNat + 2 * unsignedValue B

/-- The low `len` bits of a natural number, least significant first: `B[i] = (u >> i) mod 2` (41 R84). -/
def lowBits (len u : Nat) : Bits := (List.range len).map (fun i => (u >>> i) % 2 == 1)

/-- `sext_N(B)`: `B` followed by copies of its sign bit up to length `N` (00 R13). -/
def sext (N : Nat) (B : Bits) : Bits :=
  B ++ List.replicate (N - B.length) (B.getLast? == some true)

/-- `B[hi:lo]`, of length `hi - lo + 1` (00 R10). -/
def slice (B : Bits) (hi lo : Nat) : Bits := (B.drop lo).take (hi + 1 - lo)

/-- Apply a function that can raise an error to each element in order; the first error ends it
(60 R199: checks after the one reported are not made). -/
def collect {α β : Type} (f : α → Except Info β) : List α → Except Info (List β)
  | [] => .ok []
  | a :: as =>
    match f a with
    | .error e => .error e
    | .ok b =>
      match collect f as with
      | .error e => .error e
      | .ok bs => .ok (b :: bs)

end Sys2Proof.Machine
end

