-- ==== Sys2Proof/Machine/Ops.lean ====
section
/-! DEFINITION. The shared operations on the state: returning a response, raising an error (the block's only exception),
ending an operation with its answer, asserting reset, building a block (spec 00 R6, R8; 30 R67; 60 R197; 70 R221). -/

namespace Sys2Proof.Machine

/-- The response of a function that completed (30 R67). -/
def okResponse (tag : Tag) (value : Value) (width : Option Nat) : Response :=
  { tag := tag, status := .ok, value := some value, width := width, info := none }

/-- The response of a request that raised an error: the status and the record, no value and no width
(60 R197). -/
def errorResponse (tag : Tag) (info : Info) : Response :=
  { tag := tag, status := info.status, value := none, width := none, info := some info }

/-- Return a response to the requester. -/
def State.returning (s : State) (r : Response) : State :=
  { s with responses := s.responses ++ [r] }

/-- TAKING AN EXCEPTION: an error ends its operation with an error response. Nothing is saved and nothing
else changes; there is no handler, and so no return from one (00 R13; 60 R197, R202). -/
def raise (tag : Tag) (info : Info) (s : State) : State := s.returning (errorResponse tag info)

/-- End an operation with its answer. -/
def finish (tag : Tag) (a : Answer) (s : State) : Host.Outcome State Fault Refusal :=
  match a with
  | .ok value width => .next (s.returning (okResponse tag value width))
  | .error info => .next (raise tag info s)
  | .fault f => .fault f

/-- Go on with the result of an internal function inside `MUL.FULL` or `MUL.TRUNC`. An error there is a
fault of the model, not a response (60 R200; 93 rows 2, 4, 6; log 11). -/
def internally {α : Type} (e : Except Info α) (k : α → Answer) : Answer :=
  match e with
  | .error info => .fault (.internalError info)
  | .ok a => k a

/-- Go on with a result whose error is answered to the requester (60 R197). -/
def orAnswer {α : Type} (e : Except Info α) (k : α → Answer) : Answer :=
  match e with
  | .error info => .error info
  | .ok a => k a

/-- Assert reset: every operation in flight is abandoned without a response, and the configuration stays
(70 R221, R222). A launched request without a function that is not yet answered is abandoned with them
(10 R30; log 17). -/
def State.assertReset (s : State) : State := { s with inFlight := [], rejected := [] }

/-- Build a block: a radix other than 4 or 8 and an operand width below 1 are refused (00 R6, R8;
decision D14). -/
def construct (radix : Nat) (operandBits : Option Nat) : Option State :=
  match radixOf radix with
  | none => none
  | some r =>
    if operandBits = some 0 then none
    else some (State.idle { radix := r, operandBits := operandBits })

end Sys2Proof.Machine
end

