-- ==== Sys2Proof/Machine/Codec.lean ====
section
/-! DEFINITION. signed_bitvector_codec: `ENCODE`, `DECODE`, and the meanings of `BV.ENCODE` and `BV.DECODE` (spec 41). -/

namespace Sys2Proof.Machine

/-- `ENCODE(v, w)`: the two's-complement pattern of `v` in `round_up(w, g)` bits, or `ERR_WIDTH`
(41 R82 to R84). -/
def encodeBits (r : Radix) (v w : Int) : Except Info Bits :=
  if w < 1 then .error (.width .V v w)
  else
    let w' := roundUp w (groupSize r)
    if fits v w' then
      let u := if v < 0 then 2 ^ w'.toNat + v else v
      .ok (lowBits w'.toNat u.toNat)
    else .error (.width .V v w')

/-- `DECODE(B)`: the two's-complement value of a bit vector (41 R86). A bit vector has a bit (00 R10);
every caller has checked that. -/
def decodeBits (B : Bits) : Int :=
  if B.getLast? = some true then (unsignedValue B : Int) - 2 ^ B.length else (unsignedValue B : Int)

/-- The answer of `BV.ENCODE` (41 R84). -/
def answerBvEncode (cfg : Config) (v w : Int) : Answer :=
  orAnswer (encodeBits cfg.radix v w) fun B => .ok (.bits B) none

/-- The answer of `BV.DECODE` (41 R86); its width is the vector's length (30 R67). -/
def answerBvDecode (B : Bits) : Answer :=
  if B.wf then .ok (.int (decodeBits B)) (some B.length) else .fault .emptyBitVector

/-- `BV.ENCODE v, w` (41 R84). -/
def execBvEncode (tag : Tag) (v w : Int) (s : State) : Host.Outcome State Fault Refusal :=
  finish tag (answerBvEncode s.cfg v w) s

/-- `BV.DECODE B` (41 R86). -/
def execBvDecode (tag : Tag) (B : Bits) (s : State) : Host.Outcome State Fault Refusal :=
  finish tag (answerBvDecode B) s

end Sys2Proof.Machine
end

