-- ==== Sys2Proof/Machine/Booth.lean ====
section
/-! DEFINITION. booth_encoder: the digit of a group, `BOOTH_DIGITS`, and the meaning of `BOOTH.DIGITS` (spec 42). -/

namespace Sys2Proof.Machine

/-- The overlap bit of group `i`: 0 for group 0, else the top bit of group `i - 1` (42 R101). -/
def overlapBit (r : Radix) (B : Bits) (i : Nat) : Int :=
  if 1 ≤ i then bitAt B (groupSize r * i - 1) else 0

/-- The digit formulas (42 R103 for radix-4, R105 for radix-8). -/
def digitFormula (r : Radix) (B : Bits) (i : Nat) : Int :=
  match r with
  | .r4 => -2 * bitAt B (2 * i + 1) + bitAt B (2 * i) + overlapBit .r4 B i
  | .r8 =>
    -4 * bitAt B (3 * i + 2) + 2 * bitAt B (3 * i + 1) + bitAt B (3 * i) + overlapBit .r8 B i

/-- One group of `BOOTH_DIGITS`: the index check, the formula, the range check (42 R100, R102, R104). -/
def boothDigit (r : Radix) (B : Bits) (i : Nat) : Except Info Int :=
  let top := groupSize r * i + groupSize r - 1
  if B.length ≤ top then .error (.boothIndex i top B.length)
  else
    let d := digitFormula r B i
    if digitInRange r d then .ok d else .error (.digitRange i d)

/-- The number of groups, `ceil(L / g)` (42 R101). -/
def groupCount (r : Radix) (len : Nat) : Nat := (len + groupSize r - 1) / groupSize r

/-- `BOOTH_DIGITS(B)`, group by group (42 R102). -/
def boothDigits (r : Radix) (B : Bits) : Except Info (List Int) :=
  collect (boothDigit r B) (List.range (groupCount r B.length))

/-- The answer of `BOOTH.DIGITS` (42 R102): at the sub-block access interface its errors are ordinary
responses (60 R200). -/
def answerBoothDigits (cfg : Config) (B : Bits) : Answer :=
  if B.wf then orAnswer (boothDigits cfg.radix B) fun ds => .ok (.ints ds) none
  else .fault .emptyBitVector

/-- `BOOTH.DIGITS B` (42 R102). -/
def execBoothDigits (tag : Tag) (B : Bits) (s : State) : Host.Outcome State Fault Refusal :=
  finish tag (answerBoothDigits s.cfg B) s

end Sys2Proof.Machine
end

