-- ==== Sys2Proof/Machine/Cpa.lean ====
section
/-! DEFINITION. carry_propagate_adder_tree: the column step, the engine, its two modes, and the meanings of `CPA.FULL` and
`CPA.TRUNC` (spec 44; 10 R26). -/

namespace Sys2Proof.Machine

/-- The phase at column `c` of a sum split at column `s` (10 R26, 44 R141). -/
def phaseAt (s c : Nat) : Phase := if s ≤ c then .HIGH else .LOW

/-- The number of partial products whose width covers column `c` and whose bit there is 1. One that is
shorter contributes nothing, not a copy of its sign (44 R140, decision D10). -/
def columnCount (pps : List Bits) (c : Nat) : Nat := pps.countP (fun p => p[c]? == some true)

/-- The summation state when a sum split at column `s` starts (10 R26, 70 R223). -/
def sumStart (s : Nat) : SumState := { c := 0, carry := 0, res := [], phase := phaseAt s 0 }

/-- The column step `STEP(S)` (44 R141). -/
def sumStep (pps : List Bits) (s : Nat) (S : SumState) : SumState :=
  let cs := S.carry + columnCount pps S.c
  { c := S.c + 1
    carry := cs / 2
    res := if s ≤ S.c then S.res ++ [cs % 2 == 1] else S.res
    phase := phaseAt s (S.c + 1) }

/-- `while S.c < t: S <- STEP(S)`, for at most `fuel` steps (44 R142, R150). -/
def sumLoop (pps : List Bits) (s t : Nat) : (fuel : Nat) → SumState → SumState
  | 0, S => S
  | fuel + 1, S => if S.c < t then sumLoop pps s t fuel (sumStep pps s S) else S

/-- `CPA(pps, s, t)`: the final summation state; it takes exactly `t` steps (44 R142). -/
def cpa (pps : List Bits) (s t : Nat) : SumState := sumLoop pps s t t (sumStart s)

/-- `CPA_FULL(pps, t)`: columns `0 .. t-1`, all emitted; the carry out is discarded (44 R143, R145). -/
def cpaFull (pps : List Bits) (t : Int) : Except Info Int :=
  if t < 1 then .error (.arg .t t) else .ok (decodeBits (cpa pps 0 t.toNat).res)

/-- `CPA_TRUNC(pps, n)`: columns `0 .. n-1` for their carry only, columns `n .. 2n-1` emitted
(44 R144). -/
def cpaTrunc (pps : List Bits) (n : Int) : Except Info Int :=
  if n < 1 then .error (.arg .t n) else .ok (decodeBits (cpa pps n.toNat (2 * n.toNat)).res)

/-- The answer of `CPA.FULL`, with `width = t` (44 R143). -/
def answerCpaFull (pps : List Bits) (t : Int) : Answer :=
  if pps.all Bits.wf then orAnswer (cpaFull pps t) fun v => .ok (.int v) (some t.toNat)
  else .fault .emptyBitVector

/-- The answer of `CPA.TRUNC`, with `width = n` (44 R144). -/
def answerCpaTrunc (pps : List Bits) (t : Int) : Answer :=
  if pps.all Bits.wf then orAnswer (cpaTrunc pps t) fun v => .ok (.int v) (some t.toNat)
  else .fault .emptyBitVector

/-- `CPA.FULL pps, t` (44 R143). -/
def execCpaFull (tag : Tag) (pps : List Bits) (t : Int) (s : State) :
    Host.Outcome State Fault Refusal :=
  finish tag (answerCpaFull pps t) s

/-- `CPA.TRUNC pps, t`, with the split in the field `t` (44 R144). -/
def execCpaTrunc (tag : Tag) (pps : List Bits) (t : Int) (s : State) :
    Host.Outcome State Fault Refusal :=
  finish tag (answerCpaTrunc pps t) s

end Sys2Proof.Machine
end

