-- ==== Sys2Proof/Machine/PartialProduct.lean ====
section
/-! DEFINITION. partial_product_generator: `PP_GEN` and the meaning of `PP.GEN` (spec 43). -/

namespace Sys2Proof.Machine

/-- The multiple `m(x, d)` of the multiplicand (43 R120: every form gives `d * x`). -/
def multiple (x d : Int) : Int := d * x

/-- `PP_GEN(x, d, i, rw)`: the digit check, the index check, then the aligned multiple encoded in `rw`
bits (43 R121, R122). -/
def ppGen (r : Radix) (x d i rw : Int) : Except Info Bits :=
  if digitInRange r d then
    if i < 0 then .error (.arg .i i)
    else encodeBits r (multiple x d * 2 ^ (groupSize r * i.toNat)) rw
  else .error (.digitRange i d)

/-- The answer of `PP.GEN` (43 R122). -/
def answerPpGen (cfg : Config) (x d i rw : Int) : Answer :=
  orAnswer (ppGen cfg.radix x d i rw) fun B => .ok (.bits B) none

/-- `PP.GEN x, d, i, rw` (43 R122). -/
def execPpGen (tag : Tag) (x d i rw : Int) (s : State) : Host.Outcome State Fault Refusal :=
  finish tag (answerPpGen s.cfg x d i rw) s

end Sys2Proof.Machine
end

