-- ==== Sys2Proof/Machine/Multiplier.lean ====
section
/-! DEFINITION. The multiplier facade: the checks at the request interface, the working widths, and the meanings of
`MUL.FULL` and `MUL.TRUNC` (spec 45). -/

namespace Sys2Proof.Machine

/-- An operand outside the signed range of `w` bits raises `ERR_WIDTH` (45 R172, R176). -/
def requireFit (which : Operand) (v w : Int) : Except Info Unit :=
  if fits v w then .ok () else .error (.width which v w)

/-- Two checks in order; the first error is the one raised (60 R199). -/
def andThen (first : Except Info Unit) (second : Except Info Unit) : Except Info Unit :=
  match first with
  | .error e => .error e
  | .ok () => second

/-- Both operands fit `w` bits, `x` checked before `y`. -/
def requireBothFit (x y w : Int) : Except Info Unit :=
  andThen (requireFit .X x w) (requireFit .Y y w)

/-- With `OPERAND_BITS = N` both operands fit `N` bits; unbounded operands always do (00 R8, 60 R192). -/
def requirePorts (cfg : Config) (x y : Int) : Except Info Unit :=
  match cfg.operandBits with
  | none => .ok ()
  | some N => requireBothFit x y N

/-- The split `n` of `MUL.TRUNC` is at least 1 (45 R175). -/
def requireSplit (n : Int) : Except Info Unit :=
  if n < 1 then .error (.arg .n n) else .ok ()

/-- The checks `MUL.TRUNC` makes on its request, in order (45 R178, 60 R199). -/
def truncChecks (cfg : Config) (x y n : Int) : Except Info Unit :=
  andThen (requirePorts cfg x y) (andThen (requireSplit n) (requireBothFit x y n))

/-- The working bit length `bl` of a full operation (45 R171). -/
def workingLength (r : Radix) (x y : Int) : Nat :=
  (roundUp ((max (bitlen x) (bitlen y) : Nat) + 1) (groupSize r)).toNat

/-- The working width `W` of a truncated operation, `n >= 1` (45 R177). -/
def workingWidth (r : Radix) (n : Int) : Nat := (roundUp n (groupSize r)).toNat

/-- `[PP_GEN(x, digits[i], i, rw) for i in 0 .. len(digits) - 1]` (45 R172, R178). -/
def partialProducts (r : Radix) (x : Int) (digits : List Int) (rw : Nat) :
    Except Info (List Bits) :=
  collect (fun di => ppGen r x di.1 (di.2 : Nat) rw) digits.zipIdx

/-- The data flow both operations share, at working width `w`: encode the multiplier `y`, recode it,
generate the partial products of the multiplicand `x` in `2w` bits, and sum them (45 R170, R172, R178).
An error inside it is a fault of the model (60 R200). -/
def multiplyAt (r : Radix) (x y : Int) (w : Nat) (sum : List Bits → Except Info Int)
    (outWidth : Nat) : Answer :=
  internally (encodeBits r y w) fun Y =>
  internally (boothDigits r Y) fun digits =>
  internally (partialProducts r x digits (2 * w)) fun pps =>
  internally (sum pps) fun result => .ok (.int result) (some outWidth)

/-- The answer of `MUL.FULL` (45 R172). -/
def answerMulFull (cfg : Config) (x y : Int) : Answer :=
  orAnswer (requirePorts cfg x y) fun _ =>
    let bl := workingLength cfg.radix x y
    multiplyAt cfg.radix x y bl (fun pps => cpaFull pps ((2 * bl : Nat) : Int)) (2 * bl)

/-- The answer of `MUL.TRUNC` (45 R178). -/
def answerMulTrunc (cfg : Config) (x y n : Int) : Answer :=
  orAnswer (truncChecks cfg x y n) fun _ =>
    multiplyAt cfg.radix x y (workingWidth cfg.radix n) (fun pps => cpaTrunc pps n) n.toNat

/-- `MUL.FULL x, y`; the field `n` is ignored (45 R172, 30 R66). -/
def execMulFull (tag : Tag) (x y _n : Int) (s : State) : Host.Outcome State Fault Refusal :=
  finish tag (answerMulFull s.cfg x y) s

/-- `MUL.TRUNC x, y, n` (45 R178). -/
def execMulTrunc (tag : Tag) (x y n : Int) (s : State) : Host.Outcome State Fault Refusal :=
  finish tag (answerMulTrunc s.cfg x y n) s

end Sys2Proof.Machine
end

