-- ==== Sys2Proof/Machine/Dispatch.lean ====
section
/-! DEFINITION. One arm per constructor of `Instr`: the meaning of each function code (spec 30 R62). -/

namespace Sys2Proof.Machine

def exec (i : Instr) (s : State) : Host.Outcome State Fault Refusal :=
  match i with
  | .mulFull tag x y n => Sys2Proof.Machine.execMulFull tag x y n s
  | .mulTrunc tag x y n => Sys2Proof.Machine.execMulTrunc tag x y n s
  | .bvEncode tag v w => Sys2Proof.Machine.execBvEncode tag v w s
  | .bvDecode tag B => Sys2Proof.Machine.execBvDecode tag B s
  | .boothDigits tag B => Sys2Proof.Machine.execBoothDigits tag B s
  | .ppGen tag x d group rw => Sys2Proof.Machine.execPpGen tag x d group rw s
  | .cpaFull tag pps t => Sys2Proof.Machine.execCpaFull tag pps t s
  | .cpaTrunc tag pps t => Sys2Proof.Machine.execCpaTrunc tag pps t s

end Sys2Proof.Machine
end

