-- ==== Sys2Proof/Machine/Operation.lean ====
section
/-! DEFINITION. An operation in flight as an agent with its own transient state: how it starts, and the internal step that
defines its next transient value (spec 10 R25 to R28; 20 R51; 44 R150). -/

namespace Sys2Proof.Machine

/-- An operation just accepted: its request, and no transient value defined yet (10 R25, R28). -/
def Op.start (i : Instr) : Op :=
  { request := i, width := none, Y := none, digits := none, pps := none, sum := none, result := none }

/-- Read a transient value. One not yet defined is a fault, never a substituted value (10 R28). -/
def need {α : Type} (which : Transient) (v : Option α) (k : α → OpStep) : OpStep :=
  match v with
  | none => .answered (.fault (.undefinedTransient which))
  | some a => k a

/-- Go on with the result of an internal function; an error is a fault of the model (60 R200). -/
def stepInternally {α : Type} (e : Except Info α) (k : α → Op) : OpStep :=
  match e with
  | .error info => .answered (.fault (.internalError info))
  | .ok a => .running (k a)

/-- Go on with a boundary check; an error is answered to the requester (60 R197). -/
def stepOrAnswer {α : Type} (e : Except Info α) (k : α → Op) : OpStep :=
  match e with
  | .error info => .answered (.error info)
  | .ok a => .running (k a)

/-- One internal step of a running sum: a column step while columns are left, then the result
(44 R150). The emitted bits are decoded; without one there is nothing to decode (00 R10). -/
def sumAdvance (o : Op) (pps : List Bits) (s t : Nat) (S : SumState) : OpStep :=
  if S.c < t then .running { o with sum := some (sumStep pps s S) }
  else if S.res.wf then .running { o with result := some (decodeBits S.res) }
  else .answered (.fault .emptyBitVector)

/-- One internal step of `MUL.FULL` or `MUL.TRUNC`. `boundary` is the checks on the request with the
working width they allow; `s w` and `t w` are the split and the top column at working width `w`. The
next value in data-flow order is defined: width, `Y`, `digits`, `pps`, `S`, `result` (10 R28). -/
def mulAdvance (r : Radix) (x y : Int) (boundary : Except Info Nat) (s t : Nat → Nat) (o : Op) :
    OpStep :=
  match o.result, o.sum, o.pps, o.digits, o.Y, o.width with
  | some v, _, _, _, _, width =>
    need .width width fun w => .answered (.ok (.int v) (some (t w - s w)))
  | none, some S, pps, _, _, width =>
    need .pps pps fun pps => need .width width fun w => sumAdvance o pps (s w) (t w) S
  | none, none, some _, _, _, width =>
    need .width width fun w => .running { o with sum := some (sumStart (s w)) }
  | none, none, none, some ds, _, width =>
    need .width width fun w =>
      stepInternally (partialProducts r x ds (2 * w)) fun pps => { o with pps := some pps }
  | none, none, none, none, some Y, _ =>
    stepInternally (boothDigits r Y) fun ds => { o with digits := some ds }
  | none, none, none, none, none, some w =>
    stepInternally (encodeBits r y w) fun Y => { o with Y := some Y }
  | none, none, none, none, none, none =>
    stepOrAnswer boundary fun w => { o with width := some w }

/-- One internal step of `CPA.FULL` or `CPA.TRUNC`, whose partial products are the request's
(44 R143, R144, R150). -/
def cpaAdvance (pps : List Bits) (field : Int) (s t : Nat) (o : Op) : OpStep :=
  match o.result, o.sum with
  | some v, _ => .answered (.ok (.int v) (some (t - s)))
  | none, some S => sumAdvance o pps s t S
  | none, none =>
    if pps.all Bits.wf then
      if field < 1 then .answered (.error (.arg .t field))
      else .running { o with sum := some (sumStart s) }
    else .answered (.fault .emptyBitVector)

/-- One internal step of an operation in flight. The codec, the Booth encoder and the partial product
generator keep no transient state, so their operations answer in one step. -/
def Op.advance (cfg : Config) (o : Op) : OpStep :=
  match o.request with
  | .mulFull _ x y _ =>
    mulAdvance cfg.radix x y
      ((requirePorts cfg x y).map fun _ => workingLength cfg.radix x y)
      (fun _ => 0) (fun bl => 2 * bl) o
  | .mulTrunc _ x y n =>
    mulAdvance cfg.radix x y
      ((truncChecks cfg x y n).map fun _ => workingWidth cfg.radix n)
      (fun _ => n.toNat) (fun _ => 2 * n.toNat) o
  | .bvEncode _ v w => .answered (answerBvEncode cfg v w)
  | .bvDecode _ B => .answered (answerBvDecode B)
  | .boothDigits _ B => .answered (answerBoothDigits cfg B)
  | .ppGen _ x d i rw => .answered (answerPpGen cfg x d i rw)
  | .cpaFull _ pps t => cpaAdvance pps t 0 t.toNat o
  | .cpaTrunc _ pps t => cpaAdvance pps t t.toNat (2 * t.toNat) o

end Sys2Proof.Machine
end

