-- ==== Sys2Proof/Machine/Sequencing.lean ====
section
/-! DEFINITION. What each input of the outside world makes the block do (spec 30 R60, R63, R64, R73; 20 R51; 70 R221). The
input has been taken off `State.inputs` already. -/

namespace Sys2Proof.Machine

/-- Decode a presented request and go on with its instruction, or with its code when the code has no
function at the interface (30 R63, R64; 60 R191); what is no request of the spec is refused by name
(log 9). -/
def accept (iface : Interface) (r : Request) (run : Instr → Host.Outcome State Fault Refusal)
    (reject : FnCode → Host.Outcome State Fault Refusal) : Host.Outcome State Fault Refusal :=
  match decode iface r with
  | .ok i => run i
  | .error (.illegalOp fn) => reject fn
  | .error (.formatMismatch fn found) => .refused (.malformedRequest (.formatMismatch fn found))
  | .error (.emptyBitVector fn) => .refused (.malformedRequest (.emptyBitVector fn))

/-- A request presented and answered before the next input (30 R73): an operation is atomic (20 R50). A
code without a function is answered `ERR_ILLEGAL_OP` and computes nothing (30 R63, R64; 60 R191). -/
def serve (iface : Interface) (r : Request) (s : State) : Host.Outcome State Fault Refusal :=
  accept iface r (fun i => exec i s) (fun fn => .next (raise r.tag (.illegalOp fn) s))

/-- A request presented beside those in flight: it gets its own transient state (20 R51, 70 R226). One
whose code has no function computes nothing and waits for its `ERR_ILLEGAL_OP` response, which may come
before or after the responses of the others: the spec orders no independent responses (20 R53; that it
waits is the model's choice, log 17). -/
def launch (iface : Interface) (r : Request) (s : State) : Host.Outcome State Fault Refusal :=
  accept iface r
    (fun i => .next { s with inFlight := s.inFlight ++ [Op.start i] })
    (fun fn => .next { s with rejected := s.rejected ++ [{ tag := r.tag, fn := fn }] })

/-- The operation at place `k` takes its next internal step; when it answers, its response is returned
and its transient state discarded (10 R25). A place that holds no operation moves nothing (log 14). -/
def advanceAt (k : Nat) (s : State) : Host.Outcome State Fault Refusal :=
  match s.inFlight[k]? with
  | none => .next s
  | some o =>
    match o.advance s.cfg with
    | .running o' => .next { s with inFlight := s.inFlight.set k o' }
    | .answered a => finish o.request.tag a { s with inFlight := s.inFlight.eraseIdx k }

/-- The launched request without a function at place `k` is answered `ERR_ILLEGAL_OP` (60 R191; log 17). A
place that holds none moves nothing (log 14). -/
def answerAt (k : Nat) (s : State) : Host.Outcome State Fault Refusal :=
  match s.rejected[k]? with
  | none => .next s
  | some x => .next (raise x.tag (.illegalOp x.fn) { s with rejected := s.rejected.eraseIdx k })

/-- With no input left the block goes on with what it has accepted, so that every accepted request gets its
response (10 R30, 30 R67, 70 R228). It takes first the requests to be answered, then the operations in
flight, the oldest first: that order is the model's choice (log 18). With nothing left it performs nothing
(70 R224). -/
def goOn (s : State) : Host.Outcome State Fault Refusal :=
  if s.rejected.isEmpty then advanceAt 0 s else answerAt 0 s

/-- One input. -/
def take (input : Input) (s : State) : Host.Outcome State Fault Refusal :=
  match input with
  | .request iface r => serve iface r s
  | .launch iface r => launch iface r s
  | .advance k => advanceAt k s
  | .answer k => answerAt k s
  | .reset => .next s.assertReset

/-- Put the request of a function code in front of the inputs, at the sub-block access interface
(log 10). -/
def State.presenting (s : State) (r : Request) : State :=
  { s with inputs := .request .subBlock r :: s.inputs }

end Sys2Proof.Machine
end

