-- ==== Sys2Proof/Machine/Step.lean ====
section
/-! DEFINITION. One step of the block: the next input of the outside world is taken. With none left the block goes on
with the requests it has accepted (spec 10 R30), and when all are answered it is idle (70 R224: it "performs nothing until a
request arrives"). -/

namespace Sys2Proof.Machine

/-- One step. -/
def step (s : State) : Host.Outcome State Fault Refusal :=
  match s.inputs with
  | [] => goOn s
  | input :: rest => take input { s with inputs := rest }

/-- `s` with the request whose function code is the low four bits of `w`, and operand fields of zeros,
presented next (log 10). -/
def State.withFetchWord (s : State) (_nbits w : Nat) : State := s.presenting (Request.ofWord w)

end Sys2Proof.Machine
end

