-- ==== Sys2Proof/Machine/Text.lean ====
section
/-! DEFINITION. The textual syntax of a request and of a program, read and written (spec 30 R71 to R73; decision D17). White
space, empty lines and the case of hexadecimal digits are the model's choices (log 13). -/

namespace Sys2Proof.Machine

/-- A blank between the parts of a line (log 13). -/
def isBlank (c : Char) : Bool := c == ' ' || c == '\t' || c == '\r'

def dropBlanks (cs : List Char) : List Char := cs.dropWhile isBlank

/-- A text without the blanks at its two ends. -/
def trim (cs : List Char) : List Char := (dropBlanks (dropBlanks cs).reverse).reverse

/-- `;` starts a comment that runs to the end of the line (30 R71). -/
def stripComment (cs : List Char) : List Char := cs.takeWhile (fun c => c != ';')

/-- Cut a text at its commas, leaving alone those inside brackets. -/
def splitCommas (depth : Nat) : List Char → List (List Char)
  | [] => [[]]
  | c :: cs =>
    if c == ',' && depth == 0 then [] :: splitCommas depth cs
    else
      let depth' := if c == '[' then depth + 1 else if c == ']' then depth - 1 else depth
      match splitCommas depth' cs with
      | [] => [[c]]
      | p :: ps => (c :: p) :: ps

/-- The value of a digit in a base of at most 16 (log 13: either case). -/
def digitValue (base : Nat) (c : Char) : Option Nat :=
  let n := c.toNat
  let v :=
    if 48 ≤ n ∧ n ≤ 57 then n - 48
    else if 97 ≤ n ∧ n ≤ 102 then n - 87
    else if 65 ≤ n ∧ n ≤ 70 then n - 55
    else 16
  if v < base then some v else none

/-- The number that digits, most significant first, continue from `acc`. -/
def digitsValue (base : Nat) : (acc : Nat) → List Char → Option Nat
  | acc, [] => some acc
  | acc, c :: cs =>
    match digitValue base c with
    | none => none
    | some v => digitsValue base (acc * base + v) cs

/-- A number of at least one digit. -/
def parseDigits (base : Nat) (cs : List Char) : Option Nat :=
  if cs.isEmpty then none else digitsValue base 0 cs

/-- A number in decimal, or in hexadecimal with prefix `0x` (30 R71). -/
def parseNatural (cs : List Char) : Option Nat :=
  match cs with
  | '0' :: 'x' :: rest => parseDigits 16 rest
  | _ => parseDigits 10 cs

/-- An integer: a number with an optional leading `-` (30 R71). -/
def parseInteger (cs : List Char) : Option Int :=
  match cs with
  | '-' :: rest => (parseNatural rest).map fun n : Nat => -(n : Int)
  | _ => (parseNatural cs).map fun n : Nat => (n : Int)

/-- Binary digits, in the order they stand. -/
def parseBinary : List Char → Option (List Bool)
  | [] => some []
  | c :: cs =>
    match parseBinary cs with
    | none => none
    | some bs => if c == '0' then some (false :: bs) else if c == '1' then some (true :: bs) else none

/-- A bit vector: `0b`, then its bits most significant first, at least one (30 R71, 00 R10). -/
def parseVector (cs : List Char) : Option Bits :=
  match cs with
  | '0' :: 'b' :: rest => if rest.isEmpty then none else (parseBinary rest).map List.reverse
  | _ => none

/-- Every element of a list, or none. -/
def parseAll {α : Type} (f : List Char → Option α) : List (List Char) → Option (List α)
  | [] => some []
  | p :: ps =>
    match f p, parseAll f ps with
    | some a, some as => some (a :: as)
    | _, _ => none

/-- A list of bit vectors: `[`, elements separated by commas, `]` (30 R71). -/
def parseList (cs : List Char) : Option (List Bits) :=
  match cs with
  | '[' :: rest =>
    match rest.reverse with
    | ']' :: inside =>
      let body := trim inside.reverse
      if body.isEmpty then some []
      else parseAll (fun p => parseVector (trim p)) (splitCommas 0 body)
    | _ => none
  | _ => none

/-- The operand fields of a function, from the texts of its operands (30 R65, R71). `MUL.FULL` is written
with two operands; its `n` is then 0. -/
def parseFields (op : Opcode) (operands : List (List Char)) : Option Fields :=
  match op, operands with
  | .mulFull, [x, y] =>
    match parseInteger x, parseInteger y with
    | some x, some y => some (.mul x y 0)
    | _, _ => none
  | .mulTrunc, [x, y, n] =>
    match parseInteger x, parseInteger y, parseInteger n with
    | some x, some y, some n => some (.mul x y n)
    | _, _, _ => none
  | .bvEncode, [v, w] =>
    match parseInteger v, parseInteger w with
    | some v, some w => some (.enc v w)
    | _, _ => none
  | .bvDecode, [B] => (parseVector B).map .bv
  | .boothDigits, [B] => (parseVector B).map .bv
  | .ppGen, [x, d, i, rw] =>
    match parseInteger x, parseInteger d, parseInteger i, parseInteger rw with
    | some x, some d, some i, some rw => some (.pp x d i rw)
    | _, _, _, _ => none
  | .cpaFull, [pps, t] =>
    match parseList pps, parseInteger t with
    | some pps, some t => some (.cpa pps t)
    | _, _ => none
  | .cpaTrunc, [pps, t] =>
    match parseList pps, parseInteger t with
    | some pps, some t => some (.cpa pps t)
    | _, _ => none
  | _, _ => none

/-- The function a mnemonic names; there are no pseudo-instructions and no aliases (30 R72). -/
def opcodeNamed (name : List Char) : Option Opcode :=
  Opcode.all.find? (fun op => op.mnemonic.toList == name)

/-- A request from its line: mnemonic, then operands separated by commas (30 R71). -/
def parseRequest (tag : Tag) (line : List Char) : Option Request :=
  let body := trim (stripComment line)
  let name := body.takeWhile (fun c => !isBlank c)
  let rest := body.dropWhile (fun c => !isBlank c)
  match opcodeNamed name with
  | none => none
  | some op =>
    (parseFields op ((splitCommas 0 rest).map trim)).map fun fields =>
      { tag := tag, fn := op.code, fields := fields }

/-- Cut a text into its lines. -/
def splitLines : List Char → List (List Char)
  | [] => [[]]
  | c :: cs =>
    if c == '\n' then [] :: splitLines cs
    else
      match splitLines cs with
      | [] => [[c]]
      | p :: ps => (c :: p) :: ps

/-- A line that holds a request: one with more than blanks and a comment. -/
def isRequestLine (line : List Char) : Bool := !(trim (stripComment line)).isEmpty

/-- The requests of numbered lines, each with its number as tag. -/
def parseLines : (first : Nat) → List (List Char) → Option (List Request)
  | _, [] => some []
  | k, line :: lines =>
    match parseRequest k line, parseLines (k + 1) lines with
    | some r, some rs => some (r :: rs)
    | _, _ => none

/-- A program: one request a line, tagged with its number among the request lines, from 1 (30 R71, R73). -/
def parseProgram (text : String) : Option (List Request) :=
  parseLines 1 ((splitLines text.toList).filter isRequestLine)

/-- Present a program at an interface, each request answered before the next (30 R73). -/
def State.presentingProgram (s : State) (iface : Interface) (p : List Request) : State :=
  { s with inputs := s.inputs ++ p.map (.request iface) }

/-- A digit's character. -/
def digitChar (n : Nat) : Char := Char.ofNat (48 + n)

/-- The decimal digits of a number, most significant first, in front of `acc`. The fuel is more than the
number of digits. -/
def decimalDigits : (fuel : Nat) → Nat → List Char → List Char
  | 0, _, acc => acc
  | fuel + 1, n, acc =>
    if n < 10 then digitChar n :: acc else decimalDigits fuel (n / 10) (digitChar (n % 10) :: acc)

/-- An integer in decimal (30 R71). -/
def writeInteger (v : Int) : List Char :=
  let digits := decimalDigits (v.natAbs.log2 + 1) v.natAbs []
  if v < 0 then '-' :: digits else digits

/-- A bit vector, most significant bit first (30 R71). -/
def writeVector (B : Bits) : List Char :=
  '0' :: 'b' :: B.reverse.map (fun b => if b then '1' else '0')

/-- Texts with a comma and a blank between them. -/
def joinCommas : List (List Char) → List Char
  | [] => []
  | [p] => p
  | p :: ps => p ++ ',' :: ' ' :: joinCommas ps

/-- A list of bit vectors (30 R71). -/
def writeList (pps : List Bits) : List Char := '[' :: joinCommas (pps.map writeVector) ++ [']']

/-- The operands of an instruction, each as its text; `MUL.FULL` is written without its `n` (30 R71). -/
def writeOperands : Instr → List (List Char)
  | .mulFull _ x y _ => [writeInteger x, writeInteger y]
  | .mulTrunc _ x y n => [writeInteger x, writeInteger y, writeInteger n]
  | .bvEncode _ v w => [writeInteger v, writeInteger w]
  | .bvDecode _ B => [writeVector B]
  | .boothDigits _ B => [writeVector B]
  | .ppGen _ x d i rw => [writeInteger x, writeInteger d, writeInteger i, writeInteger rw]
  | .cpaFull _ pps t => [writeList pps, writeInteger t]
  | .cpaTrunc _ pps t => [writeList pps, writeInteger t]

/-- The line of an instruction (30 R71). -/
def writeRequest (i : Instr) : List Char :=
  i.opcode.mnemonic.toList ++ ' ' :: joinCommas (writeOperands i)

end Sys2Proof.Machine
end

