-- ==== Sys2Proof/Safety.lean ====
section
/-! DEFINITION. The terms the claims use: what a well-formed response is, the invariant of an operation in flight and of the
state, how many internal steps an operation has left, and the states after an answer or an error written out field by
field. -/

namespace Sys2Proof.Machine

/-- A response is complete or an error, never both (30 R67, 60 R197): with an error record it carries that
record's status, no value and no width; without one the status is `OK`, a value is present, and a width
is present exactly when the value is an integer, which fits it (30 R67, R69). -/
def Response.wf (r : Response) : Bool :=
  match r.info with
  | some e => r.status == e.status && r.value == none && r.width == none
  | none =>
    r.status == .ok &&
      match r.value, r.width with
      | some (.int v), some w => fits v w
      | some (.bits B), none => B.wf
      | some (.ints _), none => true
      | _, _ => false

/-- What the rules say of the transient values of a multiply in flight: each value that is defined is the
one its rule gives, from values defined before it (10 R27, R28). -/
structure MulInv (r : Radix) (x y : Int) (boundary : Except Info Nat) (s t : Nat → Nat) (o : Op) :
    Prop where
  width : ∀ w, o.width = some w → boundary = .ok w
  Y : ∀ Y, o.Y = some Y → ∃ w, o.width = some w ∧ encodeBits r y w = .ok Y
  digits : ∀ ds, o.digits = some ds → ∃ Y, o.Y = some Y ∧ boothDigits r Y = .ok ds
  pps : ∀ pps, o.pps = some pps → ∃ ds w, o.digits = some ds ∧ o.width = some w ∧
    partialProducts r x ds (2 * w) = .ok pps
  sum : ∀ S, o.sum = some S → ∃ pps w, o.pps = some pps ∧ o.width = some w ∧ S.c ≤ t w ∧
    S = sumLoop pps (s w) (t w) S.c (sumStart (s w))
  result : ∀ v, o.result = some v → ∃ S w, o.sum = some S ∧ o.width = some w ∧ S.c = t w ∧
    v = decodeBits S.res

/-- The same for a column sum in flight whose partial products are the request's (44 R150). -/
structure CpaInv (pps : List Bits) (field : Int) (s t : Nat) (o : Op) : Prop where
  unused : o.width = none ∧ o.Y = none ∧ o.digits = none ∧ o.pps = none
  sum : ∀ S, o.sum = some S → 1 ≤ field ∧ S.c ≤ t ∧ S = sumLoop pps s t S.c (sumStart s)
  result : ∀ v, o.result = some v → ∃ S, o.sum = some S ∧ S.c = t ∧ v = decodeBits S.res

/-- The invariant of an operation in flight. -/
def Op.Inv (cfg : Config) (o : Op) : Prop :=
  o.request.wf = true ∧
  match o.request with
  | .mulFull _ x y _ =>
    MulInv cfg.radix x y ((requirePorts cfg x y).map fun _ => workingLength cfg.radix x y)
      (fun _ => 0) (fun bl => 2 * bl) o
  | .mulTrunc _ x y n =>
    MulInv cfg.radix x y ((truncChecks cfg x y n).map fun _ => workingWidth cfg.radix n)
      (fun _ => n.toNat) (fun _ => 2 * n.toNat) o
  | .cpaFull _ pps t => CpaInv pps t 0 t.toNat o
  | .cpaTrunc _ pps t => CpaInv pps t t.toNat (2 * t.toNat) o
  | .bvEncode _ _ _ => o = Op.start o.request
  | .bvDecode _ _ => o = Op.start o.request
  | .boothDigits _ _ => o = Op.start o.request
  | .ppGen _ _ _ _ _ => o = Op.start o.request

/-- The partial products an operation in flight sums: the request's for the column engine, the transient
ones for a multiply (44 R142). -/
def Op.summands (o : Op) : List Bits :=
  match o.request with
  | .cpaFull _ pps _ => pps
  | .cpaTrunc _ pps _ => pps
  | _ => o.pps.getD []

/-- The split column `s` of an operation's sum (44 R142 to R144, 45 R172, R178). -/
def Op.split (o : Op) : Nat :=
  match o.request with
  | .mulTrunc _ _ _ n => n.toNat
  | .cpaTrunc _ _ t => t.toNat
  | _ => 0

/-- The top column count `t` of an operation's sum (44 R142 to R144, 45 R172, R178). -/
def Op.top (o : Op) : Nat :=
  match o.request with
  | .mulFull _ _ _ _ => 2 * o.width.getD 0
  | .mulTrunc _ _ _ n => 2 * n.toNat
  | .cpaFull _ _ t => t.toNat
  | .cpaTrunc _ _ t => 2 * t.toNat
  | _ => 0

/-- The invariant of the state: a legal configuration, every operation in flight as the rules say, and
every response returned well formed. -/
structure State.Inv (s : State) : Prop where
  cfg : s.cfg.wf = true
  inFlight : ∀ o ∈ s.inFlight, o.Inv s.cfg
  responses : ∀ r ∈ s.responses, r.wf = true

/-- The internal steps a multiply in flight has left, the last of them being its answer: one for each
transient value and one for each column (70 R228). -/
def mulStepsLeft (boundary : Except Info Nat) (t : Nat → Nat) (o : Op) : Nat :=
  match o.result, o.sum, o.pps, o.digits, o.Y, o.width with
  | some _, _, _, _, _, _ => 1
  | none, some S, _, _, _, some w => t w - S.c + 2
  | none, none, some _, _, _, some w => t w + 3
  | none, none, none, some _, _, some w => t w + 4
  | none, none, none, none, some _, some w => t w + 5
  | none, none, none, none, none, some w => t w + 6
  | none, none, none, none, none, none =>
    match boundary with
    | .ok w => t w + 7
    | .error _ => 1
  | none, _, _, _, _, none => 1

/-- The same for a column sum in flight. -/
def cpaStepsLeft (field : Int) (t : Nat) (o : Op) : Nat :=
  match o.result, o.sum with
  | some _, _ => 1
  | none, some S => t - S.c + 2
  | none, none => if field < 1 then 1 else t + 3

/-- The internal steps an operation in flight has left, its answer counted (70 R228). -/
def Op.stepsLeft (cfg : Config) (o : Op) : Nat :=
  match o.request with
  | .mulFull _ x y _ =>
    mulStepsLeft ((requirePorts cfg x y).map fun _ => workingLength cfg.radix x y)
      (fun bl => 2 * bl) o
  | .mulTrunc _ x y n =>
    mulStepsLeft ((truncChecks cfg x y n).map fun _ => workingWidth cfg.radix n)
      (fun _ => 2 * n.toNat) o
  | .cpaFull _ _ t => cpaStepsLeft t t.toNat o
  | .cpaTrunc _ _ t => cpaStepsLeft t (2 * t.toNat) o
  | .bvEncode _ _ _ => 1
  | .bvDecode _ _ => 1
  | .boothDigits _ _ => 1
  | .ppGen _ _ _ _ _ => 1

/-- `s` after the response of a completed function: one response more, and nothing else. -/
def State.answered (s : State) (tag : Tag) (value : Value) (width : Option Nat) : State :=
  { cfg := s.cfg
    inputs := s.inputs
    inFlight := s.inFlight
    rejected := s.rejected
    responses := s.responses ++
      [{ tag := tag, status := .ok, value := some value, width := width, info := none }] }

/-- `s` after an error response: one response more, and nothing else. -/
def State.errored (s : State) (tag : Tag) (status : Status) (info : Info) : State :=
  { cfg := s.cfg
    inputs := s.inputs
    inFlight := s.inFlight
    rejected := s.rejected
    responses := s.responses ++
      [{ tag := tag, status := status, value := none, width := none, info := some info }] }

/-- `k` steps, stopping at the first fault or refusal. -/
def runSteps : Nat → State → Host.Outcome State Fault Refusal
  | 0, s => .next s
  | k + 1, s =>
    match step s with
    | .next s' => runSteps k s'
    | .fault f => .fault f
    | .refused r => .refused r

end Sys2Proof.Machine
end

