-- ==== Sys2Proof/Certificates/Slice0/Obligations.lean ====
section
/-! DEFINITION. The statements for the provers. Each docstring names the rule of spec/ it formalises. Where the spec marks
the rule "[derived: ...]", the statement's basis is derived and the docstring says so. -/

open Sys2Proof Sys2Proof.Machine

/-! ## Function codes, requests, interfaces -/

/-- 30 R62: the eight assigned function codes with their mnemonics and formats; every other code is
reserved. -/
def Obligations.AssignedCodesAndReservedCodes : Prop :=
  (∀ row ∈ [(0x0#4, "MUL.FULL", Format.fMul), (0x1#4, "MUL.TRUNC", Format.fMul),
      (0x8#4, "BV.ENCODE", Format.fEnc), (0x9#4, "BV.DECODE", Format.fBv),
      (0xA#4, "BOOTH.DIGITS", Format.fBv), (0xB#4, "PP.GEN", Format.fPp),
      (0xC#4, "CPA.FULL", Format.fCpa), (0xD#4, "CPA.TRUNC", Format.fCpa)],
    (opcodeOf row.1).map (fun op => (op.mnemonic, op.format)) = some row.2) ∧
  ∀ fn : FnCode, opcodeOf fn = none ↔
    fn ∈ [0x2#4, 0x3#4, 0x4#4, 0x5#4, 0x6#4, 0x7#4, 0xE#4, 0xF#4]

/-- 30 R62: the codes written out as words decode to the functions they stand for, with operand fields of
zeros (log 10), and the reserved words to none. -/
def Obligations.CodeWordsDecode : Prop :=
  decodeTableWord 8 0b0000 = some (.mulFull 0 0 0 0) ∧
  decodeTableWord 8 0b0001 = some (.mulTrunc 0 0 0 0) ∧
  decodeTableWord 8 0b1000 = some (.bvEncode 0 0 0) ∧
  decodeTableWord 8 0b1001 = some (.bvDecode 0 [false]) ∧
  decodeTableWord 8 0b1010 = some (.boothDigits 0 [false]) ∧
  decodeTableWord 8 0b1011 = some (.ppGen 0 0 0 0 0) ∧
  decodeTableWord 8 0b1100 = some (.cpaFull 0 [] 0) ∧
  decodeTableWord 8 0b1101 = some (.cpaTrunc 0 [] 0) ∧
  ∀ w ∈ [0b0010, 0b0011, 0b0100, 0b0101, 0b0110, 0b0111, 0b1110, 0b1111],
    decodeTableWord 8 w = none

/-- 30 R60, R62, R63, R70: for every instruction that can be written, decoding its request gives it back, on
the external interface too when `fn[3] = 0`; and a request that decodes on any interface is exactly the
request of the instruction it decodes to, which can be written. -/
def Obligations.DecodeAndEncodeAreInverse : Prop :=
  (∀ i : Instr, i.wf = true →
    decode .subBlock (encode i) = .ok i ∧
    decode .external (encode i) =
      if i.fn.getLsbD 3 then .error (.illegalOp i.fn) else .ok i) ∧
  (∀ (iface : Interface) (r : Request) (i : Instr), decode iface r = .ok i →
    encode i = r ∧ i.wf = true)

/-- 30 R71, R72: for every instruction that can be written (for `MUL.FULL` the written `n` is 0), reading the
line it is written as gives its request, with any tag and with a comment after it. Blanks around operands
are the model's choice (log 13). -/
def Obligations.WrittenRequestReadsBack : Prop :=
  ∀ (i : Instr) (tag : Tag) (comment : List Char), i.wf = true →
    (∀ t x y n, i = .mulFull t x y n → n = 0) →
    parseRequest tag (writeRequest i) = some { encode i with tag := tag } ∧
    parseRequest tag (writeRequest i ++ ';' :: comment) = some { encode i with tag := tag }

/-- 30 R71: the rule's example lines, the last with shorter vectors in place of its own, and hexadecimal
integers. Blanks, here those after a mnemonic, after a comma and before a comment, are the model's choice
(log 13). -/
def Obligations.SyntaxExamplesRead : Prop :=
  parseProgram "MUL.FULL 7, 12\nMUL.TRUNC 20, 20, 8\nBV.ENCODE -3, 5" =
    some [⟨1, 0x0#4, .mul 7 12 0⟩, ⟨2, 0x1#4, .mul 20 20 8⟩, ⟨3, 0x8#4, .enc (-3) 5⟩] ∧
  parseRequest 4 "BOOTH.DIGITS 0b001100".toList =
    some ⟨4, 0xA#4, .bv [false, false, true, true, false, false]⟩ ∧
  parseRequest 5 "PP.GEN 7, -1, 1, 12 ; a comment".toList = some ⟨5, 0xB#4, .pp 7 (-1) 1 12⟩ ∧
  parseRequest 6 "CPA.FULL [0b0111, 0b100], 12".toList =
    some ⟨6, 0xC#4, .cpa [[true, true, true, false], [false, false, true]] 12⟩ ∧
  parseRequest 7 "MUL.FULL 0x1F, -0x10".toList = some ⟨7, 0x0#4, .mul 31 (-16) 0⟩ ∧
  parseRequest 8 "MUL 1, 2".toList = none

/-- 60 R191, 30 R64: a presented request whose code is reserved, on either interface, or has `fn[3] = 1` at
the external interface, is answered `ERR_ILLEGAL_OP` (status 1) with the record `{fn}`, whatever its
operand fields are, and nothing else changes. -/
def Obligations.CodeWithoutFunctionIsAnsweredIllegalOp : Prop :=
  ∀ (s : State) (iface : Interface) (r : Request) (rest : List Input),
    s.inputs = .request iface r :: rest →
    r.fn ∈ [0x2#4, 0x3#4, 0x4#4, 0x5#4, 0x6#4, 0x7#4, 0xE#4, 0xF#4] ∨
      (iface = .external ∧ r.fn.getLsbD 3 = true) →
    step s = .next (State.errored { s with inputs := rest } r.tag .errIllegalOp (.illegalOp r.fn)) ∧
      Status.errIllegalOp.code = 1#3

/-- The same request launched beside others: no operation is started for it and nothing is computed; it waits,
and when the outside lets it be answered it gets the same response, whatever else waits or is in flight.
That it waits till then is the model's choice (log 17): the spec orders no independent responses
(20 R51, R53). -/
def Obligations.LaunchedCodeWithoutFunctionWaitsForItsAnswer : Prop :=
  ∀ (s : State) (iface : Interface) (r : Request) (rest : List Input),
    r.fn ∈ [0x2#4, 0x3#4, 0x4#4, 0x5#4, 0x6#4, 0x7#4, 0xE#4, 0xF#4] ∨
      (iface = .external ∧ r.fn.getLsbD 3 = true) →
    (s.inputs = .launch iface r :: rest →
      step s = .next
        { s with inputs := rest, rejected := s.rejected ++ [{ tag := r.tag, fn := r.fn }] }) ∧
    (∀ k : Nat, s.inputs = .answer k :: rest → s.rejected[k]? = some { tag := r.tag, fn := r.fn } →
      step s = .next (State.errored { s with inputs := rest, rejected := s.rejected.eraseIdx k }
        r.tag .errIllegalOp (.illegalOp r.fn)))

/-- A step runs the decoded request (00 R7, 20 R50): when the next input presents a request that decodes to
an instruction, the step takes the input away and is that instruction's `exec`. -/
def Obligations.StepRunsTheDecodedRequest : Prop :=
  ∀ (s : State) (iface : Interface) (r : Request) (rest : List Input) (i : Instr),
    s.inputs = .request iface r :: rest → decode iface r = .ok i →
    step s = exec i { s with inputs := rest }

/-- Model's choice (log 9): what is no request of the spec, fields of another format or an empty bit vector
(30 R60, 00 R10), is refused by name when its code is offered at the interface. -/
def Obligations.MalformedRequestIsRefused : Prop :=
  ∀ (s : State) (iface : Interface) (r : Request) (rest : List Input) (op : Opcode),
    s.inputs = .request iface r :: rest → opcodeOf r.fn = some op → iface.offers r.fn = true →
    (op.format ≠ r.fields.format →
      step s = .refused (.malformedRequest (.formatMismatch r.fn r.fields.format))) ∧
    (op.format = r.fields.format → r.fields.wf = false →
      step s = .refused (.malformedRequest (.emptyBitVector r.fn)))

/-- 70 R224: with every accepted request answered, the block performs nothing until a request arrives. That
a step with no input leaves the state is the model's reading (log 2). -/
def Obligations.IdleBlockPerformsNothing : Prop :=
  ∀ s : State, s.inputs = [] → s.inFlight = [] → s.rejected = [] → step s = .next s

/-- Model's choice (log 18): with no input left the block goes on, first with the oldest request to be
answered, then with the oldest operation in flight, as if that one were advanced. -/
def Obligations.BlockGoesOnWithoutInputs : Prop :=
  ∀ s : State, s.inputs = [] →
    (∀ x xs, s.rejected = x :: xs →
      step s = .next (State.errored { s with rejected := xs } x.tag .errIllegalOp (.illegalOp x.fn))) ∧
    (s.rejected = [] → step s = step { s with inputs := [.advance 0] })

/-! ## Reset and configuration -/

/-- 70 R220, R222; 10 R31: after reset nothing is in flight and the operand width is the spec's default; the
radix is the model's choice (log 1), and so are the empty lists of inputs, of requests to be answered and
of responses (log 2, log 3, log 17). The
reset state, of every legal configuration, meets the invariant. -/
def Obligations.ResetIsIdleAndMeetsTheInvariant : Prop :=
  State.reset.inFlight = [] ∧ State.reset.rejected = [] ∧ State.reset.inputs = [] ∧
  State.reset.responses = [] ∧
  State.reset.cfg.operandBits = none ∧ State.reset.Inv ∧
  ∀ cfg : Config, cfg.wf = true → (State.idle cfg).Inv

/-- 70 R221, R222: a reset abandons every operation in flight without a response and keeps the
configuration. That the inputs not yet presented and the responses already returned stay is the model's
reading (log 6), and so is that requests still to be answered are abandoned (log 17). -/
def Obligations.ResetAbandonsOperationsInFlight : Prop :=
  ∀ (s : State) (rest : List Input), s.inputs = .reset :: rest →
    step s = .next
      { cfg := s.cfg, inputs := rest, inFlight := [], rejected := [], responses := s.responses }

/-- 00 R6, decision D14: a block is built with radix 4 (group size 2) or 8 (group size 3) and an operand
width that is unbounded or at least 1, and with nothing else. -/
def Obligations.OnlyLegalBlocksAreBuilt : Prop :=
  (∀ n ob, construct n ob ≠ none ↔ (n = 4 ∨ n = 8) ∧ ob ≠ some 0) ∧
  (∀ n ob s, construct n ob = some s →
    (n = 4 → s.cfg.radix = .r4 ∧ groupSize s.cfg.radix = 2) ∧
    (n = 8 → s.cfg.radix = .r8 ∧ groupSize s.cfg.radix = 3) ∧
    s.cfg.operandBits = ob ∧ s.inFlight = [] ∧ s.cfg.wf = true)

/-- 00 R6, 70 R222, 10 R23: no step changes the configuration. A step also takes at most the next input, and
keeps every response already returned, adding at most one. -/
def Obligations.StepKeepsConfigurationAndResponses : Prop :=
  ∀ s s' : State, step s = .next s' →
    s'.cfg = s.cfg ∧ s'.inputs = s.inputs.tail ∧
      (s'.responses = s.responses ∨ ∃ r, s'.responses = s.responses ++ [r])

/-! ## Every request is answered -/

/-- 30 R67, 10 R30, 60 R197 and R200 (with 42 R107 and 43 R123, which the spec marks derived): every
instruction that can be written, in every legal configuration, is answered by exactly one response; it
carries the request's tag, and it is well formed: complete, or an error without value and width. Nothing
else in the state changes, and no internal error is ever reached. -/
def Obligations.EveryRequestGetsExactlyOneResponse : Prop :=
  ∀ (i : Instr) (s : State), i.wf = true → s.cfg.wf = true →
    ∃ r : Response, r.tag = i.tag ∧ r.wf = true ∧
      exec i s = .next
        { cfg := s.cfg
          inputs := s.inputs
          inFlight := s.inFlight
          rejected := s.rejected
          responses := s.responses ++ [r] }

/-- The frame of every instruction (20 R49, 10 R25): if it answers a next state at all, its response has its
tag, and configuration, inputs, operations in flight, requests to be answered and earlier responses are
unchanged. -/
def Obligations.ExecLeavesEverythingElse : Prop :=
  ∀ (i : Instr) (s t : State), exec i s = .next t →
    t.cfg = s.cfg ∧ t.inputs = s.inputs ∧ t.inFlight = s.inFlight ∧ t.rejected = s.rejected ∧
      ∃ r : Response, r.tag = i.tag ∧ t.responses = s.responses ++ [r]

/-- 20 R49: an operation is a function of its request and of the configuration. Two blocks with the same
configuration, whatever they have in flight and have answered before, return the same response. -/
def Obligations.ResponseDependsOnRequestAndConfigurationOnly : Prop :=
  ∀ (i : Instr) (s t s' : State), s.cfg = t.cfg → exec i s = .next s' →
    ∃ r : Response, s' = { s with responses := s.responses ++ [r] } ∧
      exec i t = .next { t with responses := t.responses ++ [r] }

/-- Model's choice (log 8): an instruction with an empty bit vector, which cannot be written (00 R10), stops
with a fault of its own. -/
def Obligations.EmptyBitVectorFaults : Prop :=
  ∀ (i : Instr) (s : State), i.wf = false → exec i s = .fault .emptyBitVector

/-- 60 R196: the status codes; 6 and 7 are the code of no status. -/
def Obligations.StatusCodesAreAsAssigned : Prop :=
  Status.ok.code = 0#3 ∧ Status.errIllegalOp.code = 1#3 ∧ Status.errArg.code = 2#3 ∧
  Status.errWidth.code = 3#3 ∧ Status.errBoothIndex.code = 4#3 ∧ Status.errDigitRange.code = 5#3 ∧
  ∀ st : Status, st.code ≠ 6#3 ∧ st.code ≠ 7#3

/-! ## signed_bitvector_codec -/

/-- 41 R80 (decision D5): `bitlen(v)` is the least `k` with `|v| < 2^k`; it depends on `|v|` only, and
`bitlen(v) + 1` bits hold `v` in two's complement. -/
def Obligations.BitlenIsTheLeastLength : Prop :=
  ∀ v : Int, v.natAbs < 2 ^ bitlen v ∧ (∀ k : Nat, v.natAbs < 2 ^ k → bitlen v ≤ k) ∧
    bitlen (-v) = bitlen v ∧ fits v (bitlen v + 1) = true

/-- 41 R81: `round_up(a, g)` is the least multiple of `g` that is not below `a`. -/
def Obligations.RoundUpIsTheLeastMultiple : Prop :=
  ∀ (a : Int) (r : Radix),
    (groupSize r : Int) ∣ roundUp a (groupSize r) ∧ a ≤ roundUp a (groupSize r) ∧
    (∀ m : Int, (groupSize r : Int) ∣ m → a ≤ m → roundUp a (groupSize r) ≤ m) ∧
    (1 ≤ a → (groupSize r : Int) ≤ roundUp a (groupSize r))

/-- 41 R84: `BV.ENCODE` answers the bit vector of `round_up(w, g)` bits whose bit `i` is `(u >> i) mod 2`,
with `u = 2^w' + v` for a negative `v` and `u = v` otherwise; it raises `ERR_WIDTH` when `w < 1`, and
when `v` does not fit the rounded width. -/
def Obligations.EncodeAnswersThePattern : Prop :=
  ∀ (s : State) (tag : Tag) (v w : Int),
    (w < 1 → exec (.bvEncode tag v w) s = .next (s.errored tag .errWidth (.width .V v w))) ∧
    (1 ≤ w → fits v (roundUp w (groupSize s.cfg.radix)) = false →
      exec (.bvEncode tag v w) s = .next (s.errored tag .errWidth
        (.width .V v (roundUp w (groupSize s.cfg.radix))))) ∧
    (1 ≤ w → fits v (roundUp w (groupSize s.cfg.radix)) = true →
      ∃ B : Bits, (B.length : Int) = roundUp w (groupSize s.cfg.radix) ∧
        (∀ i, i < B.length → bitAt B i =
          ((if v < 0 then 2 ^ B.length + v else v) / 2 ^ i) % 2) ∧
        exec (.bvEncode tag v w) s = .next (s.answered tag (.bits B) none))

/-- 41 R85 (derived in the spec): the unsigned value of an encoded vector is `v mod 2^w'`. -/
def Obligations.EncodedVectorHoldsTheRemainder : Prop :=
  ∀ (r : Radix) (v w : Int) (B : Bits), encodeBits r v w = .ok B →
    (B.length : Int) = roundUp w (groupSize r) ∧ (unsignedValue B : Int) = v % 2 ^ B.length

/-- 41 R86: `BV.DECODE` answers the two's-complement value of its vector, which lies in
`[-2^(L-1), 2^(L-1) - 1]`, with the vector's length as width; it raises nothing. -/
def Obligations.DecodeAnswersTheSignedValue : Prop :=
  ∀ (s : State) (tag : Tag) (B : Bits), B ≠ [] →
    ∃ u v : Int, u = ((List.range B.length).map (fun i => bitAt B i * 2 ^ i)).sum ∧
      v = (if bitAt B (B.length - 1) = 1 then u - 2 ^ B.length else u) ∧
      -(2 ^ (B.length - 1)) ≤ v ∧ v ≤ 2 ^ (B.length - 1) - 1 ∧
      exec (.bvDecode tag B) s = .next (s.answered tag (.int v) (some B.length))

/-- 41 R87 (derived in the spec): the round-trip law, for every value and width that `ENCODE` accepts. -/
def Obligations.DecodeAfterEncodeIsTheValue : Prop :=
  ∀ (r : Radix) (v w : Int) (B : Bits), encodeBits r v w = .ok B → decodeBits B = v

/-- 41 R88 (derived in the spec): re-encoding at the same width gives the vector back, sign-extended to the
rounded width; a length that is a multiple of `g` gives the vector itself. -/
def Obligations.EncodeAfterDecodeIsTheVector : Prop :=
  ∀ (r : Radix) (B : Bits), B ≠ [] →
    encodeBits r (decodeBits B) B.length =
      .ok (sext (roundUp B.length (groupSize r)).toNat B) ∧
    (groupSize r ∣ B.length → encodeBits r (decodeBits B) B.length = .ok B)

/-- 41 R89 (derived in the spec): sign extension keeps the value. -/
def Obligations.SignExtensionKeepsTheValue : Prop :=
  ∀ (N : Nat) (B : Bits), B ≠ [] → B.length ≤ N →
    (sext N B).length = N ∧ decodeBits (sext N B) = decodeBits B

/-! ## booth_encoder -/

/-- 42 R103: the radix-4 digit table, row by row. -/
def Obligations.Radix4DigitTable : Prop :=
  ∀ (B : Bits) (i : Nat), 2 * i + 1 < B.length →
    boothDigit .r4 B i = .ok
      (match bitAt B (2 * i + 1), bitAt B (2 * i), overlapBit .r4 B i with
      | 0, 0, 0 => 0
      | 0, 0, 1 => 1
      | 0, 1, 0 => 1
      | 0, 1, 1 => 2
      | 1, 0, 0 => -2
      | 1, 0, 1 => -1
      | 1, 1, 0 => -1
      | _, _, _ => 0)

/-- 42 R105: the radix-8 digit table, row by row. -/
def Obligations.Radix8DigitTable : Prop :=
  ∀ (B : Bits) (i : Nat), 3 * i + 2 < B.length →
    boothDigit .r8 B i = .ok
      (match bitAt B (3 * i + 2), bitAt B (3 * i + 1), bitAt B (3 * i), overlapBit .r8 B i with
      | 0, 0, 0, 0 => 0
      | 0, 0, 0, 1 => 1
      | 0, 0, 1, 0 => 1
      | 0, 0, 1, 1 => 2
      | 0, 1, 0, 0 => 2
      | 0, 1, 0, 1 => 3
      | 0, 1, 1, 0 => 3
      | 0, 1, 1, 1 => 4
      | 1, 0, 0, 0 => -4
      | 1, 0, 0, 1 => -3
      | 1, 0, 1, 0 => -3
      | 1, 0, 1, 1 => -2
      | 1, 1, 0, 0 => -2
      | 1, 1, 0, 1 => -1
      | 1, 1, 1, 0 => -1
      | _, _, _, _ => 0)

/-- 42 R102 (with R100, R101): `BOOTH.DIGITS` answers one digit for each of the `L / g` groups, by the formula
of the block's radix over the group's bits and its overlap bit; a length that is not a multiple of `g`
raises `ERR_BOOTH_INDEX` at group `ceil(L / g) - 1`, and no digit list is returned. -/
def Obligations.BoothDigitsFollowThePseudocode : Prop :=
  ∀ (s : State) (tag : Tag) (B : Bits), B ≠ [] →
    (groupSize s.cfg.radix ∣ B.length →
      ∃ ds : List Int, ds.length = B.length / groupSize s.cfg.radix ∧
        (∀ i d, ds[i]? = some d →
          digitInRange s.cfg.radix d = true ∧
          (s.cfg.radix = .r4 → d = -2 * bitAt B (2 * i + 1) + bitAt B (2 * i) +
            (if 1 ≤ i then bitAt B (2 * i - 1) else 0)) ∧
          (s.cfg.radix = .r8 → d = -4 * bitAt B (3 * i + 2) + 2 * bitAt B (3 * i + 1) +
            bitAt B (3 * i) + (if 1 ≤ i then bitAt B (3 * i - 1) else 0))) ∧
        exec (.boothDigits tag B) s = .next (s.answered tag (.ints ds) none)) ∧
    (¬ groupSize s.cfg.radix ∣ B.length →
      exec (.boothDigits tag B) s = .next (s.errored tag .errBoothIndex
        (.boothIndex ((B.length / groupSize s.cfg.radix : Nat) : Int)
          ((groupSize s.cfg.radix * (B.length / groupSize s.cfg.radix) + groupSize s.cfg.radix - 1 :
            Nat) : Int) B.length)))

/-- 42 R104 (its claim of range is derived in the spec): the digit ranges, and `BOOTH_DIGITS` never raises
`ERR_DIGIT_RANGE`. -/
def Obligations.BoothDigitsNeverLeaveTheirRange : Prop :=
  (∀ d : Int, digitInRange .r4 d = true ↔ d ∈ [-2, -1, 0, 1, 2]) ∧
  (∀ d : Int, digitInRange .r8 d = true ↔ d ∈ [-4, -3, -2, -1, 0, 1, 2, 3, 4]) ∧
  (∀ (r : Radix) (B : Bits) (g d : Int), boothDigits r B ≠ .error (.digitRange g d)) ∧
  (∀ (r : Radix) (B : Bits) (ds : List Int), boothDigits r B = .ok ds →
    ∀ d ∈ ds, digitInRange r d = true)

/-- 42 R106 (derived in the spec): the digits, weighted by their groups, sum to the vector's value. -/
def Obligations.DigitsSumToTheValue : Prop :=
  ∀ (r : Radix) (B : Bits) (ds : List Int), B ≠ [] → boothDigits r B = .ok ds →
    (ds.zipIdx.map (fun di => di.1 * 2 ^ (groupSize r * di.2))).sum = decodeBits B

/-! ## partial_product_generator -/

/-- 43 R120: the multiple each digit selects; a digit not in the range of the block's radix has none and
raises `ERR_DIGIT_RANGE`, so ±3 and ±4 do under radix-4. -/
def Obligations.DigitsSelectMultiples : Prop :=
  (∀ x : Int, multiple x 0 = 0 ∧ multiple x 1 = x ∧ multiple x (-1) = -x ∧
    multiple x 2 = x * 2 ^ 1 ∧ multiple x (-2) = -(x * 2 ^ 1) ∧
    multiple x 3 = x + 2 * x ∧ multiple x (-3) = -(x + 2 * x) ∧
    multiple x 4 = x * 2 ^ 2 ∧ multiple x (-4) = -(x * 2 ^ 2)) ∧
  (∀ (r : Radix) (x d i rw : Int), digitInRange r d = false →
    ppGen r x d i rw = .error (.digitRange i d)) ∧
  (∀ d ∈ ([3, -3, 4, -4] : List Int), digitInRange .r4 d = false ∧ digitInRange .r8 d = true)

/-- 43 R122 (with R121, R124): `PP.GEN` checks the digit, then the group index, then the width, and answers
the encoding of `d * x * 2^(g*i)` in `round_up(rw, g)` bits, and nothing else. -/
def Obligations.PartialProductFollowsThePseudocode : Prop :=
  ∀ (s : State) (tag : Tag) (x d i rw : Int),
    (digitInRange s.cfg.radix d = false →
      exec (.ppGen tag x d i rw) s = .next (s.errored tag .errDigitRange (.digitRange i d))) ∧
    (digitInRange s.cfg.radix d = true → i < 0 →
      exec (.ppGen tag x d i rw) s = .next (s.errored tag .errArg (.arg .i i))) ∧
    (digitInRange s.cfg.radix d = true → 0 ≤ i → rw < 1 →
      exec (.ppGen tag x d i rw) s = .next (s.errored tag .errWidth
        (.width .V (d * x * 2 ^ (groupSize s.cfg.radix * i.toNat)) rw))) ∧
    (digitInRange s.cfg.radix d = true → 0 ≤ i → 1 ≤ rw →
      fits (d * x * 2 ^ (groupSize s.cfg.radix * i.toNat)) (roundUp rw (groupSize s.cfg.radix)) = false →
      exec (.ppGen tag x d i rw) s = .next (s.errored tag .errWidth
        (.width .V (d * x * 2 ^ (groupSize s.cfg.radix * i.toNat))
          (roundUp rw (groupSize s.cfg.radix))))) ∧
    (digitInRange s.cfg.radix d = true → 0 ≤ i → 1 ≤ rw →
      fits (d * x * 2 ^ (groupSize s.cfg.radix * i.toNat)) (roundUp rw (groupSize s.cfg.radix)) = true →
      ∃ B : Bits, (B.length : Int) = roundUp rw (groupSize s.cfg.radix) ∧
        (unsignedValue B : Int) = (d * x * 2 ^ (groupSize s.cfg.radix * i.toNat)) % 2 ^ B.length ∧
        exec (.ppGen tag x d i rw) s = .next (s.answered tag (.bits B) none))

/-! ## carry_propagate_adder_tree -/

/-- 44 R141 (with R140): the column step. `k` counts the partial products that cover the column and have a 1
there. -/
def Obligations.ColumnStepFollowsThePseudocode : Prop :=
  ∀ (pps : List Bits) (s k cs : Nat) (S : SumState),
    k = (pps.filter (fun p => decide (S.c < p.length) && p.getD S.c false)).length →
    cs = S.carry + k →
    sumStep pps s S =
      { c := S.c + 1
        carry := cs / 2
        res := if S.c ≥ s then S.res ++ [decide (cs % 2 = 1)] else S.res
        phase := if S.c + 1 ≥ s then .HIGH else .LOW }

/-- 44 R142: the engine starts at `(0, 0, [], LOW if s > 0 else HIGH)`, takes exactly `t` column steps, and
ends with `t - s` emitted bits. -/
def Obligations.EngineTakesExactlyTheColumnSteps : Prop :=
  ∀ (pps : List Bits) (s t : Nat), s < t →
    cpa pps s t = (sumStep pps s)^[t]
      { c := 0, carry := 0, res := [], phase := if s > 0 then .LOW else .HIGH } ∧
    (cpa pps s t).c = t ∧ (cpa pps s t).res.length = t - s

/-- 10 R29 (derived in the spec): with `P` partial products the carry never exceeds `max(P - 1, 0)`, and the
column sum never exceeds `2P - 1` (0 for `P = 0`). Natural subtraction stops at 0. -/
def Obligations.CarryAndColumnSumAreBounded : Prop :=
  ∀ (pps : List Bits) (s t k : Nat), k ≤ t →
    (sumLoop pps s t k (sumStart s)).carry ≤ pps.length - 1 ∧
    (sumLoop pps s t k (sumStart s)).carry +
      columnCount pps (sumLoop pps s t k (sumStart s)).c ≤ 2 * pps.length - 1

/-- 44 R143 (with R145): `CPA.FULL` answers the decoded bits of columns `0 .. t-1`, a `t`-bit value, with
`width = t`, and raises `ERR_ARG` when `t < 1`. -/
def Obligations.CpaFullFollowsThePseudocode : Prop :=
  ∀ (s : State) (tag : Tag) (pps : List Bits) (t : Int), (∀ p ∈ pps, p ≠ []) →
    (t < 1 → exec (.cpaFull tag pps t) s = .next (s.errored tag .errArg (.arg .t t))) ∧
    (1 ≤ t → ∃ v : Int, v = decodeBits (cpa pps 0 t.toNat).res ∧
      -(2 ^ (t.toNat - 1)) ≤ v ∧ v ≤ 2 ^ (t.toNat - 1) - 1 ∧
      exec (.cpaFull tag pps t) s = .next (s.answered tag (.int v) (some t.toNat)))

/-- 44 R144 (with R145): `CPA.TRUNC` with split `n` answers the decoded bits of columns `n .. 2n-1`, an
`n`-bit value, with `width = n`, and raises `ERR_ARG` when `n < 1`. -/
def Obligations.CpaTruncFollowsThePseudocode : Prop :=
  ∀ (s : State) (tag : Tag) (pps : List Bits) (n : Int), (∀ p ∈ pps, p ≠ []) →
    (n < 1 → exec (.cpaTrunc tag pps n) s = .next (s.errored tag .errArg (.arg .t n))) ∧
    (1 ≤ n → ∃ v : Int, v = decodeBits (cpa pps n.toNat (2 * n.toNat)).res ∧
      -(2 ^ (n.toNat - 1)) ≤ v ∧ v ≤ 2 ^ (n.toNat - 1) - 1 ∧
      exec (.cpaTrunc tag pps n) s = .next (s.answered tag (.int v) (some n.toNat)))

/-- 44 R146 (derived in the spec): the sum law. The emitted bits at their weights, the carry out at weight
`2^t`, and the discarded low bits, below `2^s`, make up the sum of the unsigned values of the bits the
engine reads. -/
def Obligations.EmittedBitsCarryAndLowBitsMakeTheSum : Prop :=
  ∀ (pps : List Bits) (s t : Nat), s < t →
    ∃ low : Nat, low < 2 ^ s ∧
      unsignedValue (cpa pps s t).res * 2 ^ s + (cpa pps s t).carry * 2 ^ t + low =
        (pps.map (fun p => unsignedValue (p.take t))).sum

/-- 44 R146 (derived in the spec): when every partial product has at least `t` bits, `CPA.FULL` answers the
sum of their signed values modulo `2^t`, read as a signed `t`-bit value. -/
def Obligations.CpaFullIsTheSumModuloItsWidth : Prop :=
  ∀ (s : State) (tag : Tag) (pps : List Bits) (t : Nat), 1 ≤ t → (∀ p ∈ pps, t ≤ p.length) →
    exec (.cpaFull tag pps t) s =
      .next (s.answered tag (.int (Int.bmod (pps.map decodeBits).sum (2 ^ t))) (some t))

/-- 44 R147, 45 R182 (R147 derived in the spec): the seed carry of the truncated mode is the full engine's
carry into column `n`, and its emitted bits are bits `2n-1 .. n` of the full engine's. -/
def Obligations.TruncatedBitsAreTheFullEnginesHighBits : Prop :=
  ∀ (pps : List Bits) (n : Nat), 1 ≤ n →
    (sumLoop pps n (2 * n) n (sumStart n)).carry = (sumLoop pps 0 (2 * n) n (sumStart 0)).carry ∧
    (cpa pps n (2 * n)).res = slice (cpa pps 0 (2 * n)).res (2 * n - 1) n

/-! ## Multiplier facade -/

/-- 45 R171: the working bit length is a multiple of `g`, at least `g` and at least 2, both operands fit it,
and it is the least multiple of `g` above the longer operand's bit length. -/
def Obligations.WorkingLengthHoldsBothOperands : Prop :=
  ∀ (r : Radix) (x y : Int),
    (workingLength r x y : Int) =
      roundUp ((max (bitlen x) (bitlen y) : Nat) + 1 : Int) (groupSize r) ∧
    groupSize r ∣ workingLength r x y ∧ groupSize r ≤ workingLength r x y ∧
    2 ≤ workingLength r x y ∧ fits x (workingLength r x y) = true ∧ fits y (workingLength r x y) = true

/-- 45 R173 (derived in the spec), with R172's width and 30 R66: `MUL.FULL` answers the exact product of every
pair of integers the operand ports admit, under both radices and whatever `n` is. -/
def Obligations.MulFullIsTheExactProduct : Prop :=
  ∀ (s : State) (tag : Tag) (x y n : Int),
    (∀ N : Nat, s.cfg.operandBits = some N → fits x N = true ∧ fits y N = true) →
    exec (.mulFull tag x y n) s =
      .next (s.answered tag (.int (x * y)) (some (2 * workingLength s.cfg.radix x y)))

/-- 45 R179, R180 (derived in the spec): for every `n >= 1` and operands that fit `n` bits (and the operand
ports), `MUL.TRUNC` answers `floor(x * y / 2^n)`, with `width = n`, under both radices; so
`result * 2^n <= x * y < (result + 1) * 2^n`. -/
def Obligations.MulTruncIsTheFloorOfTheProduct : Prop :=
  ∀ (s : State) (tag : Tag) (x y : Int) (n : Nat), 1 ≤ n →
    fits x n = true → fits y n = true →
    (∀ N : Nat, s.cfg.operandBits = some N → fits x N = true ∧ fits y N = true) →
    ∃ v : Int, v = Int.fdiv (x * y) (2 ^ n) ∧ v * 2 ^ n ≤ x * y ∧ x * y < (v + 1) * 2 ^ n ∧
      exec (.mulTrunc tag x y n) s = .next (s.answered tag (.int v) (some n))

/-- 30 R66: `MUL.FULL` ignores its `n` field: any value, including a negative one, is accepted and has no
effect on the response. -/
def Obligations.MulFullIgnoresItsSplitField : Prop :=
  ∀ (s : State) (tag : Tag) (x y n m : Int),
    exec (.mulFull tag x y n) s = exec (.mulFull tag x y m) s ∧
    ∀ iface : Interface, decode iface ⟨tag, 0x0#4, .mul x y n⟩ = .ok (.mulFull tag x y n)

/-- 00 R8, 60 R192, R199: with `OPERAND_BITS = N` both multiply functions answer `ERR_WIDTH` to an operand
outside the signed `N`-bit range, `x` checked before `y`, and before anything about `n`. -/
def Obligations.OperandPortsAreCheckedFirst : Prop :=
  ∀ (s : State) (tag : Tag) (x y n : Int) (N : Nat), s.cfg.operandBits = some N →
    (fits x N = false →
      exec (.mulFull tag x y n) s = .next (s.errored tag .errWidth (.width .X x N)) ∧
      exec (.mulTrunc tag x y n) s = .next (s.errored tag .errWidth (.width .X x N))) ∧
    (fits x N = true → fits y N = false →
      exec (.mulFull tag x y n) s = .next (s.errored tag .errWidth (.width .Y y N)) ∧
      exec (.mulTrunc tag x y n) s = .next (s.errored tag .errWidth (.width .Y y N)))

/-- 45 R176 (with R175): operands the ports admit, the split `n` is checked first, then that `x` and then that
`y` fits `n` bits; an operand that does not fit raises `ERR_WIDTH` and is never truncated. -/
def Obligations.MulTruncChecksItsRequestInOrder : Prop :=
  ∀ (s : State) (tag : Tag) (x y n : Int),
    (∀ N : Nat, s.cfg.operandBits = some N → fits x N = true ∧ fits y N = true) →
    (n < 1 → exec (.mulTrunc tag x y n) s = .next (s.errored tag .errArg (.arg .n n))) ∧
    (1 ≤ n → fits x n = false →
      exec (.mulTrunc tag x y n) s = .next (s.errored tag .errWidth (.width .X x n))) ∧
    (1 ≤ n → fits x n = true → fits y n = false →
      exec (.mulTrunc tag x y n) s = .next (s.errored tag .errWidth (.width .Y y n)))

/-- 45 R174, R181 (derived in the spec): two blocks that differ only in their radix give the same status,
value and error record for every multiplication; for `MUL.TRUNC` the whole response agrees. -/
def Obligations.RadixDoesNotChangeTheProduct : Prop :=
  ∀ (s : State) (tag : Tag) (x y n : Int), s.cfg.wf = true →
    (∃ r4 r8 : Response,
      exec (.mulFull tag x y n) { s with cfg := { s.cfg with radix := .r4 } } =
        .next { s with cfg := { s.cfg with radix := .r4 }, responses := s.responses ++ [r4] } ∧
      exec (.mulFull tag x y n) { s with cfg := { s.cfg with radix := .r8 } } =
        .next { s with cfg := { s.cfg with radix := .r8 }, responses := s.responses ++ [r8] } ∧
      r4.status = r8.status ∧ r4.value = r8.value ∧ r4.info = r8.info) ∧
    (∃ r : Response, ∀ radix : Radix,
      exec (.mulTrunc tag x y n) { s with cfg := { s.cfg with radix := radix } } =
        .next { s with cfg := { s.cfg with radix := radix }, responses := s.responses ++ [r] })

/-! ## Operations in flight -/

/-- 20 R51, 10 R25, 70 R223: a launched request gets an operation of its own, with no transient value defined,
after those in flight, which are unchanged. -/
def Obligations.LaunchedRequestGetsItsOwnOperation : Prop :=
  ∀ (s : State) (iface : Interface) (r : Request) (rest : List Input) (i : Instr),
    s.inputs = .launch iface r :: rest → decode iface r = .ok i →
    step s = .next
      { cfg := s.cfg
        inputs := rest
        inFlight := s.inFlight ++
          [{ request := i, width := none, Y := none, digits := none, pps := none, sum := none, result := none }]
        rejected := s.rejected
        responses := s.responses }

/-- 70 R226, 20 R51: a step of one operation leaves every other operation in flight as it was: either the
stepped one is replaced in its place, or it is gone and one response with its tag is returned. A place
that holds no operation moves nothing (model's choice, log 14). -/
def Obligations.AdvanceTouchesNoOtherOperation : Prop :=
  ∀ (s s' : State) (k : Nat) (rest : List Input), s.inputs = .advance k :: rest → step s = .next s' →
    (s.inFlight[k]? = none ∧ s' = { s with inputs := rest }) ∨
    (∃ o o', s.inFlight[k]? = some o ∧ o'.request = o.request ∧
      s' = { s with inputs := rest, inFlight := s.inFlight.set k o' }) ∨
    (∃ o r, s.inFlight[k]? = some o ∧ r.tag = o.request.tag ∧
      s' =
        { s with
          inputs := rest
          inFlight := s.inFlight.eraseIdx k
          responses := s.responses ++ [r] })

/-- 20 R50, R51 (and 44 R150): stepped in any order among others, an operation in flight either goes on, with
exactly one internal step less to go, or answers exactly what the whole operation answers at once. -/
def Obligations.SteppedOperationAnswersAsTheWhole : Prop :=
  ∀ (s : State) (k : Nat) (rest : List Input) (o : Op), s.Inv → s.inputs = .advance k :: rest →
    s.inFlight[k]? = some o →
    (∃ o', o'.request = o.request ∧ o'.Inv s.cfg ∧ o'.stepsLeft s.cfg + 1 = o.stepsLeft s.cfg ∧
      step s = .next { s with inputs := rest, inFlight := s.inFlight.set k o' }) ∨
    (o.stepsLeft s.cfg = 1 ∧
      step s = exec o.request { s with inputs := rest, inFlight := s.inFlight.eraseIdx k })

/-- 70 R228, 30 R67: an operation in flight, left alone with the steps it has left, answers: the run returns the
response of the whole operation. A fresh `MUL.FULL` has `2*bl + 7` internal steps, a fresh `MUL.TRUNC`
`2n + 7` (the model's granularity, log 5). -/
def Obligations.OperationInFlightAnswersInItsStepsLeft : Prop :=
  (∀ (s : State) (k : Nat) (rest : List Input) (o : Op), s.Inv → s.inFlight[k]? = some o →
    s.inputs = List.replicate (o.stepsLeft s.cfg) (.advance k) ++ rest →
    runSteps (o.stepsLeft s.cfg) s =
      exec o.request { s with inputs := rest, inFlight := s.inFlight.eraseIdx k }) ∧
  (∀ (r : Radix) (tag : Tag) (x y n : Int),
    (Op.start (.mulFull tag x y n)).stepsLeft ⟨r, none⟩ = 2 * workingLength r x y + 7 ∧
    (1 ≤ n → fits x n = true → fits y n = true →
      (Op.start (.mulTrunc tag x y n)).stepsLeft ⟨r, none⟩ = 2 * n.toNat + 7))

/-- 10 R30, 30 R67, 70 R228, 44 R150: every accepted request gets exactly one response. With no input left and
no reset, the block answers every request it has accepted by itself, in the bounded number of steps they
have left, and is then idle. A request without a function gets `ERR_ILLEGAL_OP`; an operation gets the
response of the whole operation run alone. The order is the model's choice (log 18), and the count is its
granularity (log 5). -/
def Obligations.AcceptedRequestsAreAnsweredWithoutInputs : Prop :=
  ∀ s : State, s.Inv → s.inputs = [] →
    ∃ rs : List Response,
      runSteps (s.rejected.length + (s.inFlight.map (fun o => o.stepsLeft s.cfg)).sum) s = .next
        { cfg := s.cfg, inputs := [], inFlight := [], rejected := [], responses := s.responses ++ rs } ∧
      rs.length = s.rejected.length + s.inFlight.length ∧
      (∀ (k : Nat) (x : Rejected), s.rejected[k]? = some x → rs[k]? =
        some (Response.mk x.tag .errIllegalOp none none (some (.illegalOp x.fn)))) ∧
      (∀ (k : Nat) (o : Op), s.inFlight[k]? = some o → ∃ r, rs[s.rejected.length + k]? = some r ∧
        r.tag = o.request.tag ∧
        exec o.request (State.idle s.cfg) = .next { State.idle s.cfg with responses := [r] })

/-- 10 R28: a step of a multiply in flight that reads the working width or the partial products before they
are defined faults. -/
def Obligations.UndefinedTransientFaults : Prop :=
  ∀ (cfg : Config) (o : Op) (tag : Tag) (x y n : Int),
    o.request = .mulFull tag x y n ∨ o.request = .mulTrunc tag x y n →
    (o.width = none → o.result ≠ none ∨ (o.sum ≠ none ∧ o.pps ≠ none) ∨
        (o.sum = none ∧ (o.pps ≠ none ∨ o.digits ≠ none)) →
      o.advance cfg = .answered (.fault (.undefinedTransient .width))) ∧
    (o.result = none → o.sum ≠ none → o.pps = none →
      o.advance cfg = .answered (.fault (.undefinedTransient .pps)))

/-! ## The invariant -/

/-- 10 R26 to R29, 30 R67: every step keeps the invariant: the configuration legal, every transient value of
every operation in flight the one its rule gives, every response well formed. -/
def Obligations.StepKeepsTheInvariant : Prop :=
  ∀ s s' : State, s.Inv → step s = .next s' → s'.Inv

/-- 60 R200, 10 R28, 44 R150: from a state that meets the invariant no step faults: neither an internal error
nor an undefined transient value is ever reached. -/
def Obligations.NoStepFaultsUnderTheInvariant : Prop :=
  ∀ (s : State) (f : Fault), s.Inv → step s ≠ .fault f

/-- 10 R26, R29 (its bound is derived in the spec): in an operation in flight under the invariant, the column is
at most the top column, the phase is the column's, one bit is emitted for each column from the split on,
and the carry is at most `max(P - 1, 0)` for `P` partial products. -/
def Obligations.SumInFlightStaysInBounds : Prop :=
  ∀ (s : State) (o : Op) (S : SumState), s.Inv → o ∈ s.inFlight → o.sum = some S →
    S.c ≤ o.top ∧ (S.phase = .HIGH ↔ o.split ≤ S.c) ∧ S.res.length = S.c - o.split ∧
      S.carry ≤ o.summands.length - 1
end

