-- ==== Sys2Proof/Laws/Operands.lean ====
section
/-! SUPPORT. What the operand functions do: group sizes, widths, bit lengths, bit vectors, `collect`. -/

namespace Sys2Proof.Machine

@[simp] theorem groupSize_r4 : groupSize .r4 = 2 := rfl
@[simp] theorem groupSize_r8 : groupSize .r8 = 3 := rfl

theorem groupSize_pos (r : Radix) : 0 < groupSize r := by cases r <;> decide
theorem two_le_groupSize (r : Radix) : 2 ≤ groupSize r := by cases r <;> decide

theorem fits_iff (v w : Int) :
    fits v w = true ↔ 1 ≤ w ∧ -(2 ^ (w - 1).toNat) ≤ v ∧ v ≤ 2 ^ (w - 1).toNat - 1 := by
  simp [fits, and_assoc]

/-- `fits` at a positive natural width. -/
theorem fits_succ (v : Int) (k : Nat) :
    fits v ((k + 1 : Nat) : Int) = true ↔ -(2 ^ k) ≤ v ∧ v < 2 ^ k := by
  rw [fits_iff]
  have : (((k + 1 : Nat) : Int) - 1).toNat = k := by omega
  rw [this]
  constructor
  · rintro ⟨-, h, h'⟩; exact ⟨h, by omega⟩
  · rintro ⟨h, h'⟩; exact ⟨by omega, h, by omega⟩

theorem fits_pos {v w : Int} (h : fits v w = true) : 1 ≤ w := ((fits_iff v w).1 h).1

theorem fits_mono {v : Int} {a b : Nat} (hab : a ≤ b) (h : fits v a = true) : fits v b = true := by
  have ha := fits_pos h
  obtain ⟨k, rfl⟩ : ∃ k, a = k + 1 := ⟨a - 1, by omega⟩
  obtain ⟨l, rfl⟩ : ∃ l, b = l + 1 := ⟨b - 1, by omega⟩
  rw [fits_succ] at *
  have : (2 : Int) ^ k ≤ 2 ^ l := by exact_mod_cast Nat.pow_le_pow_right (by omega) (by omega)
  omega

/-- `bitlen(v)` is the least `k` with `|v| < 2^k` (41 R80). -/
theorem bitlen_le_iff (v : Int) (k : Nat) : bitlen v ≤ k ↔ v.natAbs < 2 ^ k := by
  unfold bitlen
  split
  · next h => simp [h]
  · next h =>
    rw [Nat.add_one_le_iff, Nat.log2_lt (by omega)]

theorem natAbs_lt_two_pow_bitlen (v : Int) : v.natAbs < 2 ^ bitlen v :=
  (bitlen_le_iff v _).1 le_rfl

/-- `round_up(a, g)` is a multiple of `g` in `[a, a + g)` (41 R81). -/
theorem roundUp_spec (a : Int) (r : Radix) :
    (groupSize r : Int) ∣ roundUp a (groupSize r) ∧ a ≤ roundUp a (groupSize r) ∧
      roundUp a (groupSize r) < a + groupSize r := by
  refine ⟨Dvd.intro _ rfl, ?_, ?_⟩ <;> unfold roundUp <;> cases r <;> simp only [groupSize] <;> omega

theorem le_roundUp (a : Int) (r : Radix) : a ≤ roundUp a (groupSize r) := (roundUp_spec a r).2.1

theorem roundUp_of_dvd {a : Int} {r : Radix} (h : (groupSize r : Int) ∣ a) :
    roundUp a (groupSize r) = a := by
  obtain ⟨k, rfl⟩ := h
  unfold roundUp
  cases r <;> simp only [groupSize] <;> omega

@[simp] theorem unsignedValue_nil : unsignedValue [] = 0 := rfl
@[simp] theorem unsignedValue_cons (b : Bool) (B : Bits) :
    unsignedValue (b :: B) = b.toNat + 2 * unsignedValue B := rfl

theorem unsignedValue_append (A B : Bits) :
    unsignedValue (A ++ B) = unsignedValue A + 2 ^ A.length * unsignedValue B := by
  induction A with
  | nil => simp
  | cons a A ih => simp [ih, pow_succ]; ring

theorem unsignedValue_lt (B : Bits) : unsignedValue B < 2 ^ B.length := by
  induction B with
  | nil => simp
  | cons b B ih => cases b <;> simp [pow_succ] <;> omega

@[simp] theorem lowBits_length (len u : Nat) : (lowBits len u).length = len := by simp [lowBits]

theorem lowBits_succ (len u : Nat) :
    lowBits (len + 1) u = (u % 2 == 1) :: lowBits len (u / 2) := by
  simp [lowBits, List.range_succ_eq_map, Nat.shiftRight_succ_inside]

theorem lowBits_getElem (len u k : Nat) (h : k < (lowBits len u).length) :
    (lowBits len u)[k] = ((u >>> k) % 2 == 1) := by simp [lowBits]

/-- The low bits of `u` hold `u` modulo `2^len` (41 R85). -/
theorem unsignedValue_lowBits (len u : Nat) : unsignedValue (lowBits len u) = u % 2 ^ len := by
  induction len generalizing u with
  | zero => simp [lowBits, Nat.mod_one]
  | succ len ih =>
    rw [lowBits_succ, unsignedValue_cons, ih]
    have hb : (u % 2 == 1).toNat = u % 2 := by
      rcases Nat.mod_two_eq_zero_or_one u with h | h <;> simp [h]
    rw [hb, pow_succ', Nat.mod_mul]

/-- A bit vector is the low bits of its unsigned value. -/
theorem lowBits_unsignedValue (B : Bits) : lowBits B.length (unsignedValue B) = B := by
  induction B with
  | nil => rfl
  | cons b B ih =>
    rw [List.length_cons, lowBits_succ, unsignedValue_cons]
    have h2 : (b.toNat + 2 * unsignedValue B) / 2 = unsignedValue B := by
      cases b <;> simp; omega
    have h1 : ((b.toNat + 2 * unsignedValue B) % 2 == 1) = b := by cases b <;> simp
    rw [h1, h2, ih]

variable {α β : Type}

@[simp] theorem collect_nil (f : α → Except Info β) : collect f [] = .ok [] := rfl

theorem collect_cons_ok {f : α → Except Info β} {a : α} {b : β} (h : f a = .ok b) (as : List α) :
    collect f (a :: as) = (collect f as).map (b :: ·) := by
  simp only [collect, h]
  cases collect f as <;> rfl

theorem collect_cons_error {f : α → Except Info β} {a : α} {e : Info} (h : f a = .error e)
    (as : List α) : collect f (a :: as) = .error e := by
  unfold collect; rw [h]

/-- If `f` succeeds everywhere on the list, `collect` gives the list of its values. -/
theorem collect_eq_map {f : α → Except Info β} {g : α → β} {as : List α}
    (h : ∀ a ∈ as, f a = .ok (g a)) : collect f as = .ok (as.map g) := by
  induction as with
  | nil => rfl
  | cons a as ih =>
    rw [collect_cons_ok (h a (by simp)), ih (fun b hb => h b (by simp [hb]))]
    rfl

/-- `collect` succeeds exactly when `f` succeeds on each element, value by value in order. -/
theorem collect_ok_iff {f : α → Except Info β} {as : List α} {bs : List β} :
    collect f as = .ok bs ↔ List.Forall₂ (fun a b => f a = .ok b) as bs := by
  induction as generalizing bs with
  | nil => cases bs <;> simp [collect]
  | cons a as ih =>
    cases hf : f a with
    | error e =>
      rw [collect_cons_error hf]
      cases bs <;> simp [hf]
    | ok b =>
      rw [collect_cons_ok hf]
      cases hc : collect f as with
      | error e =>
        cases bs with
        | nil => simp [Except.map]
        | cons c cs =>
          have : ¬ List.Forall₂ (fun a b => f a = .ok b) as cs := by
            rw [← ih, hc]; simp
          simp [Except.map, this]
      | ok ds =>
        cases bs with
        | nil => simp [Except.map]
        | cons c cs =>
          have := ih (bs := cs)
          rw [hc] at this
          simp only [Except.map, Except.ok.injEq, List.cons.injEq, List.forall₂_cons, hf] at *
          rw [this]

/-- The first element on which `f` raises an error decides the error of `collect` (60 R199). -/
theorem collect_error {f : α → Except Info β} {g : α → β} {as cs : List α} {a : α} {e : Info}
    (h : ∀ b ∈ as, f b = .ok (g b)) (he : f a = .error e) :
    collect f (as ++ a :: cs) = .error e := by
  induction as with
  | nil => exact collect_cons_error he cs
  | cons b as ih =>
    rw [List.cons_append, collect_cons_ok (h b (by simp)), ih (fun b hb => h b (by simp [hb]))]
    rfl

theorem wf_iff_length_pos (B : Bits) : B.wf = true ↔ 0 < B.length := by
  cases B <;> simp [Bits.wf]

end Sys2Proof.Machine
end

