-- ==== Sys2Proof/Laws/Codec.lean ====
section
/-! SUPPORT. What `ENCODE` and `DECODE` do. `DECODE` is the balanced remainder of the unsigned value; `ENCODE` gives the low
bits of the value's remainder. -/

namespace Sys2Proof.Machine

/-- The sign bit is set exactly when the unsigned value is in the upper half. -/
theorem sign_iff (B : Bits) (h : B.wf = true) :
    B.getLast? = some true ↔ 2 ^ B.length ≤ 2 * unsignedValue B := by
  rw [wf_iff_length_pos] at h
  have hne : B ≠ [] := by rintro rfl; simp at h
  obtain ⟨A, b, rfl⟩ : ∃ A b, B = A ++ [b] := ⟨_, _, (List.dropLast_append_getLast hne).symm⟩
  have hA := unsignedValue_lt A
  rw [unsignedValue_append, List.length_append]
  cases b <;> simp [pow_succ] <;> omega

/-- `DECODE(B)` is the remainder of the unsigned value modulo `2^len(B)` nearest to 0 (41 R86). -/
theorem decodeBits_eq_bmod (B : Bits) (h : B.wf = true) :
    decodeBits B = Int.bmod (unsignedValue B) (2 ^ B.length) := by
  have hlt := unsignedValue_lt B
  have hs := sign_iff B h
  have hcast : ((2 ^ B.length : Nat) : Int) = 2 ^ B.length := by push_cast; rfl
  unfold decodeBits
  rw [Int.bmod_def, Int.emod_eq_of_lt (by omega) (by exact_mod_cast hlt), ← hcast]
  by_cases hb : B.getLast? = some true
  · have := hs.1 hb
    rw [if_pos hb, if_neg (by omega)]
  · have : ¬ 2 ^ B.length ≤ 2 * unsignedValue B := fun h' => hb (hs.2 h')
    rw [if_neg hb, if_pos (by omega)]

/-- A value that fits `w` bits is its own balanced remainder. -/
theorem bmod_of_fits {v : Int} {w : Nat} (h : fits v w = true) : Int.bmod v (2 ^ w) = v := by
  have hw := fits_pos h
  obtain ⟨k, rfl⟩ : ∃ k, w = k + 1 := ⟨w - 1, by omega⟩
  rw [fits_succ] at h
  have hc : ((2 ^ k : Nat) : Int) = 2 ^ k := by push_cast; rfl
  rw [← hc] at h
  rw [pow_succ]
  apply Int.bmod_eq_of_le <;> push_cast <;> omega

/-- A balanced remainder modulo `2^w` fits `w` bits. -/
theorem fits_bmod (v : Int) {w : Nat} (hw : 1 ≤ w) : fits (Int.bmod v (2 ^ w)) w = true := by
  obtain ⟨k, rfl⟩ : ∃ k, w = k + 1 := ⟨w - 1, by omega⟩
  rw [fits_succ]
  have hc : ((2 ^ k : Nat) : Int) = 2 ^ k := by push_cast; rfl
  have hp : 0 < 2 ^ (k + 1) := by positivity
  have h1 := Int.le_bmod (x := v) hp
  have h2 := Int.bmod_lt (x := v) hp
  have hk : (2 : Nat) ^ (k + 1) = 2 * 2 ^ k := by ring
  rw [hk] at h1
  rw [hk] at h2 ⊢
  rw [← hc]
  omega

/-- `DECODE` gives a value that fits the vector's length (41 R86). -/
theorem fits_decodeBits (B : Bits) (h : B.wf = true) : fits (decodeBits B) B.length = true := by
  rw [decodeBits_eq_bmod B h]
  exact fits_bmod _ ((wf_iff_length_pos B).1 h)

theorem decodeBits_lowBits {len : Nat} (h : 1 ≤ len) (u : Nat) :
    decodeBits (lowBits len u) = Int.bmod u (2 ^ len) := by
  rw [decodeBits_eq_bmod _ (by rw [wf_iff_length_pos, lowBits_length]; omega), lowBits_length,
    unsignedValue_lowBits]
  push_cast
  exact_mod_cast Int.emod_bmod (x := (u : Int)) (n := 2 ^ len)

/-- The pattern `ENCODE` takes bits from is the value modulo `2^w'` (41 R84, R85). -/
theorem encode_pattern {v : Int} {w : Nat} (h : fits v w = true) :
    (if v < 0 then 2 ^ w + v else v) = v % 2 ^ w := by
  have hw := fits_pos h
  obtain ⟨k, rfl⟩ : ∃ k, w = k + 1 := ⟨w - 1, by omega⟩
  rw [fits_succ] at h
  have hk : (2 : Int) ^ (k + 1) = 2 * 2 ^ k := by ring
  have hp : (0 : Int) < 2 ^ k := by positivity
  split
  · rw [← Int.add_emod_left, Int.emod_eq_of_lt] <;> omega
  · rw [Int.emod_eq_of_lt] <;> omega

/-- Everything `ENCODE` can do when it succeeds (41 R82 to R84). -/
theorem encodeBits_ok_iff {r : Radix} {v w : Int} {B : Bits} :
    encodeBits r v w = .ok B ↔ 1 ≤ w ∧ fits v (roundUp w (groupSize r)) = true ∧
      B = lowBits (roundUp w (groupSize r)).toNat
        (v % 2 ^ (roundUp w (groupSize r)).toNat).toNat := by
  have hle := le_roundUp w r
  unfold encodeBits
  split
  · next h => simp; omega
  · next h =>
    dsimp only
    split
    · next hf =>
      obtain ⟨w', hw'⟩ : ∃ w' : Nat, roundUp w (groupSize r) = w' :=
        ⟨(roundUp w (groupSize r)).toNat, by omega⟩
      rw [hw'] at hf ⊢
      rw [Int.toNat_natCast, encode_pattern hf]
      simp only [Except.ok.injEq, hf]
      constructor
      · rintro rfl; exact ⟨by omega, trivial, rfl⟩
      · rintro ⟨-, -, rfl⟩; rfl
    · next hf => simp [hf]

/-- `ENCODE` at a width that is a multiple of the group size and holds the value. -/
theorem encodeBits_of_fits {r : Radix} {v : Int} {w : Nat} (hd : groupSize r ∣ w)
    (h : fits v w = true) :
    encodeBits r v w = .ok (lowBits w (v % 2 ^ w).toNat) := by
  have hr : roundUp (w : Int) (groupSize r) = w := roundUp_of_dvd (by exact_mod_cast hd)
  rw [encodeBits_ok_iff, hr]
  exact ⟨fits_pos h, h, by simp⟩

end Sys2Proof.Machine
end

