-- ==== Sys2Proof/Laws/Booth.lean ====
section
/-! SUPPORT. What the Booth encoder does: every digit is in range, and `BOOTH_DIGITS` either gives the digit of each group or
raises `ERR_BOOTH_INDEX` at its last group. -/

namespace Sys2Proof.Machine

theorem bitAt_zero_or_one (B : Bits) (k : Nat) : bitAt B k = 0 ∨ bitAt B k = 1 := by
  unfold bitAt; split <;> simp

theorem overlapBit_zero_or_one (r : Radix) (B : Bits) (i : Nat) :
    overlapBit r B i = 0 ∨ overlapBit r B i = 1 := by
  unfold overlapBit
  split
  · exact bitAt_zero_or_one B _
  · simp

theorem decide_and_decide {p q : Prop} [Decidable p] [Decidable q] (hp : p) (hq : q) :
    (decide p && decide q) = true := by simp [hp, hq]

/-- The digit formulas always give a digit in range (42 R104). -/
theorem digitFormula_inRange (r : Radix) (B : Bits) (i : Nat) :
    digitInRange r (digitFormula r B i) = true := by
  cases r
  · have h1 := bitAt_zero_or_one B (2 * i + 1)
    have h2 := bitAt_zero_or_one B (2 * i)
    have h3 := overlapBit_zero_or_one .r4 B i
    apply decide_and_decide
    all_goals unfold digitFormula
    all_goals dsimp only
    all_goals omega
  · have h0 := bitAt_zero_or_one B (3 * i + 2)
    have h1 := bitAt_zero_or_one B (3 * i + 1)
    have h2 := bitAt_zero_or_one B (3 * i)
    have h3 := overlapBit_zero_or_one .r8 B i
    apply decide_and_decide
    all_goals unfold digitFormula
    all_goals dsimp only
    all_goals omega

/-- A group inside the vector gives its digit (42 R102). -/
theorem boothDigit_ok {r : Radix} {B : Bits} {i : Nat}
    (h : groupSize r * i + groupSize r ≤ B.length) :
    boothDigit r B i = .ok (digitFormula r B i) := by
  have := groupSize_pos r
  unfold boothDigit
  dsimp only
  rw [if_neg (by omega), if_pos (digitFormula_inRange r B i)]

/-- A group that would read past the vector raises `ERR_BOOTH_INDEX` (42 R100). -/
theorem boothDigit_error {r : Radix} {B : Bits} {i : Nat}
    (h : B.length < groupSize r * i + groupSize r) :
    boothDigit r B i =
      .error (.boothIndex i ((groupSize r * i + groupSize r - 1 : Nat) : Int) B.length) := by
  unfold boothDigit
  dsimp only
  rw [if_pos (by omega)]

/-- A vector whose length is a multiple of `g` gives the digit of each of its `len / g` groups
(42 R101, R102). -/
theorem boothDigits_of_dvd {r : Radix} {B : Bits} (h : groupSize r ∣ B.length) :
    boothDigits r B = .ok ((List.range (B.length / groupSize r)).map (digitFormula r B)) := by
  obtain ⟨w, hw⟩ := h
  have hg := groupSize_pos r
  have hc : groupCount r B.length = w := by
    unfold groupCount
    rw [hw, Nat.add_sub_assoc hg, Nat.mul_add_div hg,
      Nat.div_eq_of_lt (by omega), Nat.add_zero]
  unfold boothDigits
  rw [hc, hw, Nat.mul_div_cancel_left _ hg]
  apply collect_eq_map
  intro i hi
  apply boothDigit_ok
  rw [List.mem_range] at hi
  rw [hw, ← Nat.mul_succ]
  exact Nat.mul_le_mul_left _ hi

/-- Any other vector raises `ERR_BOOTH_INDEX` at its last group (42 R100, R102). -/
theorem boothDigits_of_not_dvd {r : Radix} {B : Bits} (h : ¬ groupSize r ∣ B.length) :
    boothDigits r B = .error (.boothIndex ((B.length / groupSize r : Nat) : Int)
      ((groupSize r * (B.length / groupSize r) + groupSize r - 1 : Nat) : Int) B.length) := by
  have hg := groupSize_pos r
  have hm : 0 < B.length % groupSize r :=
    Nat.pos_of_ne_zero fun h0 => h (Nat.dvd_of_mod_eq_zero h0)
  have hlt := Nat.mod_lt B.length hg
  have hdm := Nat.div_add_mod B.length (groupSize r)
  have hc : groupCount r B.length = B.length / groupSize r + 1 := by
    unfold groupCount
    rw [show B.length + groupSize r - 1 =
      groupSize r * (B.length / groupSize r + 1) + (B.length % groupSize r - 1) by
        rw [Nat.mul_succ]; omega]
    rw [Nat.mul_add_div hg, Nat.div_eq_of_lt (by omega : _ - 1 < groupSize r), Nat.add_zero]
  unfold boothDigits
  rw [hc, List.range_succ]
  apply collect_error (g := digitFormula r B)
  · intro i hi
    apply boothDigit_ok
    rw [List.mem_range] at hi
    have := Nat.mul_le_mul_left (groupSize r) (show i + 1 ≤ B.length / groupSize r from hi)
    rw [Nat.mul_succ] at this
    omega
  · apply boothDigit_error
    omega

theorem boothDigits_ok_iff {r : Radix} {B : Bits} {ds : List Int} :
    boothDigits r B = .ok ds ↔ groupSize r ∣ B.length ∧
      ds = (List.range (B.length / groupSize r)).map (digitFormula r B) := by
  by_cases h : groupSize r ∣ B.length
  · rw [boothDigits_of_dvd h]
    simp [h, eq_comm]
  · rw [boothDigits_of_not_dvd h]
    simp [h]

end Sys2Proof.Machine
end

