-- ==== Sys2Proof/Laws/Cpa.lean ====
section
/-! SUPPORT. What the carry-propagate engine does: after `c` columns its carry and its emitted bits are parts of one number,
the sum of the columns read so far. -/

namespace Sys2Proof.Machine

/-- The sum of the first `c` columns with their weights. -/
def columnSum (pps : List Bits) : Nat → Nat
  | 0 => 0
  | c + 1 => columnSum pps c + columnCount pps c * 2 ^ c

@[simp] theorem columnSum_zero (pps : List Bits) : columnSum pps 0 = 0 := rfl
theorem columnSum_succ (pps : List Bits) (c : Nat) :
    columnSum pps (c + 1) = columnSum pps c + columnCount pps c * 2 ^ c := rfl

theorem columnCount_le (pps : List Bits) (c : Nat) : columnCount pps c ≤ pps.length :=
  List.countP_le_length

@[simp] theorem sumStep_c (pps : List Bits) (s : Nat) (S : SumState) :
    (sumStep pps s S).c = S.c + 1 := rfl

theorem sumLoop_succ {pps : List Bits} {s t k : Nat} {S : SumState} (h : S.c < t) :
    sumLoop pps s t (k + 1) S = sumLoop pps s t k (sumStep pps s S) := by
  rw [sumLoop, if_pos h]

/-- A loop with columns left makes its steps from either end. -/
theorem sumLoop_succ' {pps : List Bits} {s t k : Nat} {S : SumState} (h : S.c + k < t) :
    sumLoop pps s t (k + 1) S = sumStep pps s (sumLoop pps s t k S) := by
  induction k generalizing S with
  | zero => simp [sumLoop, show S.c < t by omega]
  | succ k ih =>
    rw [sumLoop_succ (by omega), ih (by simp; omega), sumLoop_succ (by omega)]

/-- The bits of `u / 2^s` from 0 up to column `c`, which are the emitted bits of a sum `u` split at `s`. -/
theorem lowBits_snoc (len u : Nat) :
    lowBits (len + 1) u = lowBits len u ++ [(u >>> len) % 2 == 1] := by
  simp [lowBits, List.range_succ]

theorem lowBits_congr {len u v : Nat} (h : u % 2 ^ len = v % 2 ^ len) :
    lowBits len u = lowBits len v := by
  have hu := lowBits_unsignedValue (lowBits len u)
  have hv := lowBits_unsignedValue (lowBits len v)
  rw [unsignedValue_lowBits, lowBits_length] at hu hv
  rw [← hu, ← hv, h]

/-- The state of the sum before column `c`: the carry is what the columns below `c` leave at column `c`, and
the emitted bits are those of their sum from column `s` up (44 R141, R142). -/
def sumAt (pps : List Bits) (s c : Nat) : SumState :=
  { c := c
    carry := columnSum pps c / 2 ^ c
    res := lowBits (c - s) (columnSum pps c / 2 ^ s)
    phase := phaseAt s c }

theorem sumAt_zero (pps : List Bits) (s : Nat) : sumAt pps s 0 = sumStart s := by
  simp [sumAt, sumStart, lowBits]

/-- One column step leads from the state before column `c` to the state before column `c + 1`. -/
theorem sumStep_sumAt (pps : List Bits) (s c : Nat) :
    sumStep pps s (sumAt pps s c) = sumAt pps s (c + 1) := by
  have hp : 0 < 2 ^ c := by positivity
  have hcs : columnSum pps c / 2 ^ c + columnCount pps c = columnSum pps (c + 1) / 2 ^ c := by
    rw [columnSum_succ, Nat.add_mul_div_right _ _ hp]
  have hcarry : columnSum pps (c + 1) / 2 ^ c / 2 = columnSum pps (c + 1) / 2 ^ (c + 1) := by
    rw [Nat.div_div_eq_div_mul, ← pow_succ]
  unfold sumStep sumAt
  simp only [hcs, hcarry, SumState.mk.injEq, true_and, and_true]
  by_cases hs : s ≤ c
  · rw [if_pos hs, show c + 1 - s = (c - s) + 1 by omega, lowBits_snoc]
    have hsplit : (2 : Nat) ^ c = 2 ^ s * 2 ^ (c - s) := by
      rw [← pow_add]; congr 1; omega
    congr 1
    · apply lowBits_congr
      rw [columnSum_succ, hsplit, ← mul_assoc, mul_comm (columnCount pps c), mul_assoc,
        Nat.add_mul_div_left _ _ (by positivity), Nat.add_mul_mod_self_right]
    · rw [Nat.shiftRight_eq_div_pow, Nat.div_div_eq_div_mul, ← hsplit]
  · rw [if_neg hs]
    rw [show c - s = 0 by omega, show c + 1 - s = 0 by omega]
    simp [lowBits]

/-- The loop that has made `k` steps from its start is before column `k` (44 R142). -/
theorem sumLoop_start {pps : List Bits} {s t k : Nat} (h : k ≤ t) :
    sumLoop pps s t k (sumStart s) = sumAt pps s k := by
  induction k with
  | zero => rw [sumAt_zero]; rfl
  | succ k ih =>
    rw [sumLoop_succ' (by simp [sumStart]; omega), ih (by omega), sumStep_sumAt]

/-- The engine ends before column `t` (44 R142). -/
theorem cpa_eq (pps : List Bits) (s t : Nat) : cpa pps s t = sumAt pps s t :=
  sumLoop_start le_rfl

/-- The columns of a vector below `c` sum to its unsigned value modulo `2^c` (44 R146). -/
theorem columnSum_singleton (B : Bits) (c : Nat) :
    columnSum [B] c = unsignedValue B % 2 ^ c := by
  induction c with
  | zero => simp [Nat.mod_one]
  | succ c ih =>
    rw [columnSum_succ, ih]
    have hu : unsignedValue B / 2 ^ c % 2 = columnCount [B] c := by
      have hB := lowBits_unsignedValue B
      have hb : B[c]? = (lowBits B.length (unsignedValue B))[c]? := by rw [hB]
      have hcc : columnCount [B] c = if B[c]? = some true then 1 else 0 := by
        simp [columnCount, List.countP_cons]
      rw [hcc]
      by_cases hc : c < B.length
      · rw [hb, List.getElem?_eq_getElem (by simpa using hc)]
        simp only [lowBits_getElem, Nat.shiftRight_eq_div_pow]
        rcases Nat.mod_two_eq_zero_or_one (unsignedValue B / 2 ^ c) with h | h <;> simp [h]
      · have hlt := unsignedValue_lt B
        have : unsignedValue B < 2 ^ c :=
          lt_of_lt_of_le hlt (Nat.pow_le_pow_right (by omega) (by omega))
        rw [Nat.div_eq_of_lt this, List.getElem?_eq_none (l := B) (by omega)]
        simp
    rw [pow_succ, Nat.mod_mul, hu, mul_comm]

theorem columnSum_cons (B : Bits) (pps : List Bits) (c : Nat) :
    columnSum (B :: pps) c = columnSum [B] c + columnSum pps c := by
  induction c with
  | zero => rfl
  | succ c ih =>
    simp only [columnSum_succ, ih, columnCount, List.countP_cons, List.countP_nil]
    ring

/-- The columns of all partial products below `t` sum to the unsigned values of their bits below `t`
(44 R146, the `U_j`). -/
theorem columnSum_eq (pps : List Bits) (t : Nat) :
    columnSum pps t = (pps.map (fun B => unsignedValue B % 2 ^ t)).sum := by
  induction pps with
  | nil =>
    induction t with
    | zero => rfl
    | succ t ih => rw [columnSum_succ, ih]; simp [columnCount]
  | cons B pps ih => rw [columnSum_cons, columnSum_singleton, ih]; simp

end Sys2Proof.Machine
end

