-- ==== Sys2Proof/Laws/Decode.lean ====
section
/-! SUPPORT. What the decoder does: the code tables are inverse to each other, and a decoded request is the request of the
instruction it decodes to. -/

namespace Sys2Proof

@[simp] theorem opcodeOf_code (op : Opcode) : opcodeOf op.code = some op := by
  cases op <;> decide

theorem code_of_opcodeOf {fn : FnCode} {op : Opcode} (h : opcodeOf fn = some op) : op.code = fn := by
  have := List.find?_some h
  simpa using this

/-- What a function builds from operand fields has that function, tag and fields. -/
theorem build_eq_some_iff {op : Opcode} {tag : Tag} {f : Fields} {i : Instr} :
    op.build tag f = some i ↔ i.opcode = op ∧ i.tag = tag ∧ i.fields = f := by
  constructor
  · intro h
    cases op <;> cases f <;> simp [Opcode.build] at h <;> subst h <;>
      simp [Instr.opcode, Instr.tag, Instr.fields]
  · rintro ⟨rfl, rfl, rfl⟩
    cases i <;> rfl

/-- Fields of another format build nothing. -/
theorem build_eq_none_iff {op : Opcode} {tag : Tag} {f : Fields} :
    op.build tag f = none ↔ op.format ≠ f.format := by
  cases op <;> cases f <;> simp [Opcode.build, Opcode.format, Fields.format]

theorem fields_wf (i : Instr) : i.fields.wf = i.wf := by cases i <;> rfl

/-- Everything the decoder can accept. -/
theorem decode_ok_iff {iface : Interface} {r : Request} {i : Instr} :
    decode iface r = .ok i ↔
      iface.offers r.fn = true ∧ i.wf = true ∧ i.fn = r.fn ∧ i.tag = r.tag ∧ i.fields = r.fields := by
  unfold decode
  cases ho : opcodeOf r.fn with
  | none =>
    simp only [reduceCtorEq, false_iff]
    rintro ⟨-, -, hfn, -⟩
    rw [← hfn, Instr.fn, opcodeOf_code] at ho
    cases ho
  | some op =>
    have hc := code_of_opcodeOf ho
    by_cases hf : iface.offers r.fn = true
    · simp only [hf, if_true, true_and]
      cases hb : op.build r.tag r.fields with
      | none =>
        simp only [reduceCtorEq, false_iff]
        rintro ⟨-, hfn, ht, hfl⟩
        have hop : i.opcode = op := by
          have := opcodeOf_code i.opcode
          rw [show i.opcode.code = r.fn from hfn, ho] at this
          exact (Option.some.inj this).symm
        rw [build_eq_some_iff.2 ⟨hop, ht, hfl⟩] at hb
        cases hb
      | some j =>
        have hj := build_eq_some_iff.1 hb
        have hji : i.fn = r.fn ∧ i.tag = r.tag ∧ i.fields = r.fields ↔ j = i := by
          constructor
          · rintro ⟨hfn, ht, hfl⟩
            have hop : i.opcode = op := by
              have := opcodeOf_code i.opcode
              rw [show i.opcode.code = r.fn from hfn, ho] at this
              exact (Option.some.inj this).symm
            have := build_eq_some_iff.2 ⟨hop, ht, hfl⟩
            rw [hb] at this
            exact Option.some.inj this
          · rintro rfl
            exact ⟨by rw [Instr.fn, hj.1, hc], hj.2.1, hj.2.2⟩
        rw [hji]
        by_cases hw : j.wf = true
        · simp only [hw, if_true, Except.ok.injEq]
          constructor
          · rintro rfl; exact ⟨hw, rfl⟩
          · rintro ⟨-, h⟩; exact h
        · simp only [hw, if_false, reduceCtorEq, false_iff]
          rintro ⟨hw', rfl⟩; exact hw hw'
    · simp [hf]

end Sys2Proof
end

