-- ==== Sys2Proof/Laws/State.lean ====
section
/-! SUPPORT. One lemma per field per update of the state. -/

namespace Sys2Proof.Machine

variable (s : State) (r : Response) (tag : Tag) (info : Info)

@[simp] theorem State.returning_cfg : (s.returning r).cfg = s.cfg := rfl
@[simp] theorem State.returning_inputs : (s.returning r).inputs = s.inputs := rfl
@[simp] theorem State.returning_inFlight : (s.returning r).inFlight = s.inFlight := rfl
@[simp] theorem State.returning_rejected : (s.returning r).rejected = s.rejected := rfl
@[simp] theorem State.returning_responses : (s.returning r).responses = s.responses ++ [r] := rfl

@[simp] theorem raise_cfg : (raise tag info s).cfg = s.cfg := rfl
@[simp] theorem raise_inputs : (raise tag info s).inputs = s.inputs := rfl
@[simp] theorem raise_inFlight : (raise tag info s).inFlight = s.inFlight := rfl
@[simp] theorem raise_rejected : (raise tag info s).rejected = s.rejected := rfl
@[simp] theorem raise_responses :
    (raise tag info s).responses = s.responses ++ [errorResponse tag info] := rfl

@[simp] theorem State.assertReset_cfg : s.assertReset.cfg = s.cfg := rfl
@[simp] theorem State.assertReset_inputs : s.assertReset.inputs = s.inputs := rfl
@[simp] theorem State.assertReset_inFlight : s.assertReset.inFlight = [] := rfl
@[simp] theorem State.assertReset_rejected : s.assertReset.rejected = [] := rfl
@[simp] theorem State.assertReset_responses : s.assertReset.responses = s.responses := rfl

variable (cfg : Config)

@[simp] theorem State.idle_cfg : (State.idle cfg).cfg = cfg := rfl
@[simp] theorem State.idle_inputs : (State.idle cfg).inputs = [] := rfl
@[simp] theorem State.idle_inFlight : (State.idle cfg).inFlight = [] := rfl
@[simp] theorem State.idle_rejected : (State.idle cfg).rejected = [] := rfl
@[simp] theorem State.idle_responses : (State.idle cfg).responses = [] := rfl

end Sys2Proof.Machine
end

