-- ==== Sys2Proof/Laws/Ops.lean ====
section
/-! SUPPORT. What the shared operations can do: ending an operation with an answer, going on with an internal result. -/

namespace Sys2Proof.Machine

variable (tag : Tag) (s : State)

@[simp] theorem finish_ok (value : Value) (width : Option Nat) :
    finish tag (.ok value width) s = .next (s.returning (okResponse tag value width)) := rfl
@[simp] theorem finish_error (info : Info) :
    finish tag (.error info) s = .next (raise tag info s) := rfl
@[simp] theorem finish_fault (f : Fault) : finish tag (.fault f) s = .fault f := rfl

@[simp] theorem okResponse_tag (v : Value) (w : Option Nat) : (okResponse tag v w).tag = tag := rfl
@[simp] theorem errorResponse_tag (e : Info) : (errorResponse tag e).tag = tag := rfl

/-- The response an answer makes, when it is not a fault. -/
def Answer.response (tag : Tag) : Answer → Option Response
  | .ok value width => some (okResponse tag value width)
  | .error info => some (errorResponse tag info)
  | .fault _ => none

/-- Everything `finish` can do: return the answer's one response, or fault. -/
theorem finish_eq (a : Answer) :
    (∃ r, a.response tag = some r ∧ r.tag = tag ∧ finish tag a s = .next (s.returning r)) ∨
      (∃ f, a = .fault f ∧ finish tag a s = .fault f) := by
  cases a with
  | ok v w => exact .inl ⟨_, rfl, rfl, rfl⟩
  | error e => exact .inl ⟨_, rfl, rfl, rfl⟩
  | fault f => exact .inr ⟨f, rfl, rfl⟩

/-- If an operation ends in a next state, that state has one response more, with the request's tag. -/
theorem finish_next {a : Answer} {t : State} (h : finish tag a s = .next t) :
    ∃ r, a.response tag = some r ∧ r.tag = tag ∧ t = s.returning r := by
  rcases finish_eq tag s a with ⟨r, hr, ht, hf⟩ | ⟨f, -, hf⟩
  · rw [hf] at h; cases h; exact ⟨r, hr, ht, rfl⟩
  · rw [hf] at h; cases h

theorem finish_of_response {a : Answer} {r : Response} (h : a.response tag = some r) :
    finish tag a s = .next (s.returning r) := by
  cases a <;> cases h <;> rfl

@[simp] theorem internally_ok {α : Type} (a : α) (k : α → Answer) : internally (.ok a) k = k a := rfl
@[simp] theorem internally_error {α : Type} (e : Info) (k : α → Answer) :
    internally (.error e) k = .fault (.internalError e) := rfl
@[simp] theorem orAnswer_ok {α : Type} (a : α) (k : α → Answer) : orAnswer (.ok a) k = k a := rfl
@[simp] theorem orAnswer_error {α : Type} (e : Info) (k : α → Answer) :
    orAnswer (.error e) k = .error e := rfl

theorem requireFit_eq (which : Operand) (v w : Int) :
    requireFit which v w = if fits v w then .ok () else .error (.width which v w) := rfl

/-- Both operands fit, or the first that does not is reported. -/
theorem requireBothFit_ok_iff {x y w : Int} :
    requireBothFit x y w = .ok () ↔ fits x w = true ∧ fits y w = true := by
  unfold requireBothFit requireFit andThen
  cases fits x w <;> cases fits y w <;> simp

theorem requirePorts_ok_iff {cfg : Config} {x y : Int} :
    requirePorts cfg x y = .ok () ↔
      ∀ N : Nat, cfg.operandBits = some N → fits x N = true ∧ fits y N = true := by
  unfold requirePorts
  cases cfg.operandBits with
  | none => simp
  | some N => simp [requireBothFit_ok_iff]

theorem truncChecks_ok_iff {cfg : Config} {x y n : Int} :
    truncChecks cfg x y n = .ok () ↔ requirePorts cfg x y = .ok () ∧ 1 ≤ n ∧
      fits x n = true ∧ fits y n = true := by
  unfold truncChecks requireSplit
  cases requirePorts cfg x y with
  | error e => simp [andThen]
  | ok u =>
    by_cases hn : n < 1
    · simp [andThen, hn]
    · simp only [andThen, if_neg hn, requireBothFit_ok_iff]; simp; omega

end Sys2Proof.Machine
end

