-- ==== Sys2Proof/Laws/Exec.lean ====
section
/-! SUPPORT. `exec` as one equation: it ends the operation with the answer of the instruction's function. Claims about `exec`
rest on claims about the answers. -/

namespace Sys2Proof.Machine

/-- The answer of an instruction's function in a configuration (20 R49: it reads nothing else). -/
def answerOf (cfg : Config) : Instr → Answer
  | .mulFull _ x y _ => answerMulFull cfg x y
  | .mulTrunc _ x y n => answerMulTrunc cfg x y n
  | .bvEncode _ v w => answerBvEncode cfg v w
  | .bvDecode _ B => answerBvDecode B
  | .boothDigits _ B => answerBoothDigits cfg B
  | .ppGen _ x d i rw => answerPpGen cfg x d i rw
  | .cpaFull _ pps t => answerCpaFull pps t
  | .cpaTrunc _ pps t => answerCpaTrunc pps t

theorem exec_eq_finish (i : Instr) (s : State) :
    exec i s = finish i.tag (answerOf s.cfg i) s := by
  cases i <;> rfl

end Sys2Proof.Machine
end

