-- ==== Sys2Proof/Laws/Operation.lean ====
section
/-! SUPPORT. What an internal step of an operation in flight can do to the operation: its request is never changed, and an
internal result is stored only when it is no error. -/

namespace Sys2Proof.Machine

variable {α : Type} {o o' : Op}

theorem need_running {which : Transient} {v : Option α} {k : α → OpStep}
    (h : need which v k = .running o') : ∃ a, v = some a ∧ k a = .running o' := by
  cases v with
  | none => cases h
  | some a => exact ⟨a, rfl, h⟩

theorem stepInternally_running {e : Except Info α} {k : α → Op}
    (h : stepInternally e k = .running o') : ∃ a, e = .ok a ∧ o' = k a := by
  cases e with
  | error i => cases h
  | ok a => cases h; exact ⟨a, rfl, rfl⟩

theorem stepOrAnswer_running {e : Except Info α} {k : α → Op}
    (h : stepOrAnswer e k = .running o') : ∃ a, e = .ok a ∧ o' = k a := by
  cases e with
  | error i => cases h
  | ok a => cases h; exact ⟨a, rfl, rfl⟩

/-- Everything a running sum's step can leave running: a column step, or the decoded result. -/
theorem sumAdvance_running {pps : List Bits} {s t : Nat} {S : SumState}
    (h : sumAdvance o pps s t S = .running o') :
    (S.c < t ∧ o' = { o with sum := some (sumStep pps s S) }) ∨
      (t ≤ S.c ∧ o' = { o with result := some (decodeBits S.res) }) := by
  unfold sumAdvance at h
  split at h
  · cases h; exact .inl ⟨by assumption, rfl⟩
  · split at h
    · cases h; exact .inr ⟨by omega, rfl⟩
    · cases h

theorem sumAdvance_request {pps : List Bits} {s t : Nat} {S : SumState}
    (h : sumAdvance o pps s t S = .running o') : o'.request = o.request := by
  rcases sumAdvance_running h with ⟨-, rfl⟩ | ⟨-, rfl⟩ <;> rfl

theorem mulAdvance_request {r : Radix} {x y : Int} {b : Except Info Nat} {s t : Nat → Nat}
    (h : mulAdvance r x y b s t o = .running o') : o'.request = o.request := by
  unfold mulAdvance at h
  split at h
  · obtain ⟨w, -, h⟩ := need_running h; cases h
  · obtain ⟨p, -, h⟩ := need_running h
    obtain ⟨w, -, h⟩ := need_running h
    exact sumAdvance_request h
  · obtain ⟨w, -, h⟩ := need_running h; cases h; rfl
  · obtain ⟨w, -, h⟩ := need_running h
    obtain ⟨p, -, rfl⟩ := stepInternally_running h; rfl
  · obtain ⟨d, -, rfl⟩ := stepInternally_running h; rfl
  · obtain ⟨Y, -, rfl⟩ := stepInternally_running h; rfl
  · obtain ⟨w, -, rfl⟩ := stepOrAnswer_running h; rfl

theorem cpaAdvance_request {pps : List Bits} {field : Int} {s t : Nat}
    (h : cpaAdvance pps field s t o = .running o') : o'.request = o.request := by
  unfold cpaAdvance at h
  split at h
  · cases h
  · exact sumAdvance_request h
  · split at h
    · split at h
      · cases h
      · cases h; rfl
    · cases h

/-- No internal step changes the request of its operation. -/
theorem advance_request {cfg : Config} (h : o.advance cfg = .running o') : o'.request = o.request := by
  unfold Op.advance at h
  split at h
  · exact mulAdvance_request h
  · exact mulAdvance_request h
  · cases h
  · cases h
  · cases h
  · cases h
  · exact cpaAdvance_request h
  · exact cpaAdvance_request h

end Sys2Proof.Machine
end

