-- ==== Sys2Proof/Laws/PartialProduct.lean ====
section
/-! SUPPORT. What `PP_GEN` does, by the checks in their order. -/

namespace Sys2Proof.Machine

/-- A digit out of range is reported first (43 R122). -/
theorem ppGen_digit {r : Radix} {x d i rw : Int} (h : digitInRange r d = false) :
    ppGen r x d i rw = .error (.digitRange i d) := by
  simp [ppGen, h]

/-- Then a negative group index (43 R122). -/
theorem ppGen_index {r : Radix} {x d i rw : Int} (h : digitInRange r d = true) (hi : i < 0) :
    ppGen r x d i rw = .error (.arg .i i) := by
  simp [ppGen, h, hi]

/-- Then the aligned multiple is encoded (43 R121, R122, R124). -/
theorem ppGen_encode {r : Radix} {x d rw : Int} {i : Nat} (h : digitInRange r d = true) :
    ppGen r x d i rw = encodeBits r (d * x * 2 ^ (groupSize r * i)) rw := by
  simp [ppGen, h, multiple]

/-- `PP_GEN` succeeds exactly on a digit in range, a group index from 0, and a width that holds the aligned
multiple. -/
theorem ppGen_ok_iff {r : Radix} {x d i rw : Int} {B : Bits} :
    ppGen r x d i rw = .ok B ↔ digitInRange r d = true ∧ 0 ≤ i ∧
      encodeBits r (d * x * 2 ^ (groupSize r * i.toNat)) rw = .ok B := by
  by_cases hd : digitInRange r d = true
  · by_cases hi : i < 0
    · rw [ppGen_index hd hi]; simp; omega
    · obtain ⟨k, rfl⟩ : ∃ k : Nat, i = k := ⟨i.toNat, by omega⟩
      rw [ppGen_encode hd]; simp [hd]
  · rw [ppGen_digit (by simpa using hd)]; simp [hd]

end Sys2Proof.Machine
end

