-- ==== Sys2Proof/Laws/PerInstr.lean ====
section
/-! SUPPORT. Laws said of every constructor of `Instr`, one lemma each. -/

namespace Sys2Proof.Laws.EncodesWellFormed

/-- The request of an instruction carries the code assigned to the instruction's function, fields of that
function's format, and bit vectors with a bit exactly when the instruction can be written (30 R60, R62,
R65). -/
def Statement (i : Instr) : Prop :=
  opcodeOf (encode i).fn = some i.opcode ∧ (encode i).fields.format = i.opcode.format ∧
    (encode i).fields.wf = i.wf

theorem mulFull (tag : Tag) (x y n : Int) : Statement (.mulFull tag x y n) :=
  ⟨opcodeOf_code .mulFull, rfl, rfl⟩

theorem mulTrunc (tag : Tag) (x y n : Int) : Statement (.mulTrunc tag x y n) :=
  ⟨opcodeOf_code .mulTrunc, rfl, rfl⟩

theorem bvEncode (tag : Tag) (v w : Int) : Statement (.bvEncode tag v w) :=
  ⟨opcodeOf_code .bvEncode, rfl, rfl⟩

theorem bvDecode (tag : Tag) (B : Bits) : Statement (.bvDecode tag B) :=
  ⟨opcodeOf_code .bvDecode, rfl, rfl⟩

theorem boothDigits (tag : Tag) (B : Bits) : Statement (.boothDigits tag B) :=
  ⟨opcodeOf_code .boothDigits, rfl, rfl⟩

theorem ppGen (tag : Tag) (x d i rw : Int) : Statement (.ppGen tag x d i rw) :=
  ⟨opcodeOf_code .ppGen, rfl, rfl⟩

theorem cpaFull (tag : Tag) (pps : List Bits) (t : Int) : Statement (.cpaFull tag pps t) :=
  ⟨opcodeOf_code .cpaFull, rfl, rfl⟩

theorem cpaTrunc (tag : Tag) (pps : List Bits) (t : Int) : Statement (.cpaTrunc tag pps t) :=
  ⟨opcodeOf_code .cpaTrunc, rfl, rfl⟩

end Sys2Proof.Laws.EncodesWellFormed
end

