-- ==== Sys2Proof/Laws/Step.lean ====
section
/-! SUPPORT. What the sequencing operations and `step` can do, each said once. -/

namespace Sys2Proof.Machine

variable {iface : Interface} {r : Request} {s t : State}

/-- Everything `accept` can answer as a next state: what the instruction makes, or what a code without a
function makes. -/
theorem accept_next {run : Instr → Host.Outcome State Fault Refusal}
    {reject : FnCode → Host.Outcome State Fault Refusal} (h : accept iface r run reject = .next t) :
    (∃ i, decode iface r = .ok i ∧ run i = .next t) ∨
      (∃ fn, decode iface r = .error (.illegalOp fn) ∧ reject fn = .next t) := by
  unfold accept at h
  split at h
  · exact .inl ⟨_, by assumption, h⟩
  · exact .inr ⟨_, by assumption, h⟩
  · cases h
  · cases h

/-- Every next state of an instruction is its start state with one response more, with its tag. -/
theorem exec_next {i : Instr} (h : exec i s = .next t) : ∃ a, a.tag = i.tag ∧ t = s.returning a := by
  rw [exec_eq_finish] at h
  obtain ⟨a, -, ha, rfl⟩ := finish_next _ _ h
  exact ⟨a, ha, rfl⟩

/-- A presented request that is served leaves one response more, with the request's tag. -/
theorem serve_next (h : serve iface r s = .next t) : ∃ a, a.tag = r.tag ∧ t = s.returning a := by
  rcases accept_next h with ⟨i, hd, h⟩ | ⟨fn, -, h⟩
  · obtain ⟨a, ha, rfl⟩ := exec_next h
    exact ⟨a, ha.trans (decode_ok_iff.1 hd).2.2.2.1, rfl⟩
  · cases h; exact ⟨_, rfl, rfl⟩

/-- A launched request leaves its operation at the end of those in flight, or, without a function, waits at
the end of those to be answered. -/
theorem launch_next (h : launch iface r s = .next t) :
    (∃ i, decode iface r = .ok i ∧ t = { s with inFlight := s.inFlight ++ [Op.start i] }) ∨
      (∃ fn, decode iface r = .error (.illegalOp fn) ∧
        t = { s with rejected := s.rejected ++ [{ tag := r.tag, fn := fn }] }) := by
  rcases accept_next h with ⟨i, hd, h⟩ | ⟨fn, hd, h⟩
  · cases h; exact .inl ⟨i, hd, rfl⟩
  · cases h; exact .inr ⟨fn, hd, rfl⟩

/-- Everything an advanced place can make: nothing, the operation one step on, or its response. -/
theorem advanceAt_next {k : Nat} (h : advanceAt k s = .next t) :
    (s.inFlight[k]? = none ∧ t = s) ∨
      (∃ o o', s.inFlight[k]? = some o ∧ o.advance s.cfg = .running o' ∧
        t = { s with inFlight := s.inFlight.set k o' }) ∨
      (∃ o a, s.inFlight[k]? = some o ∧ o.advance s.cfg = .answered a ∧
        finish o.request.tag a { s with inFlight := s.inFlight.eraseIdx k } = .next t) := by
  unfold advanceAt at h
  split at h
  · cases h; exact .inl ⟨by assumption, rfl⟩
  · split at h
    · cases h; exact .inr (.inl ⟨_, _, by assumption, by assumption, rfl⟩)
    · exact .inr (.inr ⟨_, _, by assumption, by assumption, h⟩)

/-- Everything an answered place can make: it always ends in a next state. -/
theorem answerAt_eq (k : Nat) :
    (s.rejected[k]? = none ∧ answerAt k s = .next s) ∨
      ∃ x, s.rejected[k]? = some x ∧ answerAt k s =
        .next (raise x.tag (.illegalOp x.fn) { s with rejected := s.rejected.eraseIdx k }) := by
  unfold answerAt
  cases hx : s.rejected[k]? with
  | none => exact .inl ⟨rfl, rfl⟩
  | some x => exact .inr ⟨x, rfl, rfl⟩

@[simp] theorem advanceAt_of_idle {k : Nat} (h : s.inFlight = []) : advanceAt k s = .next s := by
  unfold advanceAt; rw [h]; rfl

/-- With nothing to answer the block goes on with its oldest operation. -/
theorem goOn_of_no_rejected (h : s.rejected = []) : goOn s = advanceAt 0 s := by
  unfold goOn; rw [h]; rfl

/-- A request to be answered is answered first. -/
theorem goOn_of_rejected {x : Rejected} {xs : List Rejected} (h : s.rejected = x :: xs) :
    goOn s = .next (raise x.tag (.illegalOp x.fn) { s with rejected := xs }) := by
  unfold goOn answerAt; rw [h]; rfl

theorem step_of_no_input (h : s.inputs = []) : step s = goOn s := by
  unfold step; rw [h]

theorem step_of_input {input : Input} {rest : List Input} (h : s.inputs = input :: rest) :
    step s = take input { s with inputs := rest } := by
  unfold step; rw [h]

/-- Placing a word changes the inputs only. -/
@[simp] theorem withFetchWord_cfg (nbits w : Nat) : (s.withFetchWord nbits w).cfg = s.cfg := rfl
@[simp] theorem withFetchWord_inFlight (nbits w : Nat) :
    (s.withFetchWord nbits w).inFlight = s.inFlight := rfl
@[simp] theorem withFetchWord_rejected (nbits w : Nat) :
    (s.withFetchWord nbits w).rejected = s.rejected := rfl
@[simp] theorem withFetchWord_responses (nbits w : Nat) :
    (s.withFetchWord nbits w).responses = s.responses := rfl

/-- The placed request is the next one run, and it runs as the instruction the decoder reads. -/
theorem step_withFetchWord {nbits w : Nat} {i : Instr} (h : decodeTableWord nbits w = some i) :
    step (s.withFetchWord nbits w) = exec i s := by
  unfold decodeTableWord at h
  cases hd : decode .subBlock (Request.ofWord w) with
  | error e => rw [hd] at h; cases h
  | ok j =>
    rw [hd] at h; cases h
    show accept .subBlock (Request.ofWord w) _ _ = _
    unfold accept; rw [hd]; rfl

end Sys2Proof.Machine
end

