-- ==== Sys2Proof/Tests/Slice0.lean ====
section
/-! SUPPORT. The model's own tests. Expected results are the vectors of spec 95 and the worked examples of the rules, or hand
calculation from the rules' pseudocode. Then one witness for every obligation that has hypotheses: a concrete input that
meets them together. -/

namespace Sys2Proof.Tests

open Sys2Proof.Machine

/-- A bit vector from its bits, most significant first, as the spec writes them (00 R10). -/
def bv (msbFirst : List Nat) : Bits := (msbFirst.map (fun b => b == 1)).reverse

/-- An idle block with unbounded operands. -/
def block (radix : Radix) : State := State.idle { radix := radix, operandBits := none }

/-- An idle radix-4 block with operand ports of `N` bits. -/
def ported (N : Nat) : State := State.idle { radix := .r4, operandBits := some N }

/-- An idle radix-4 block to which `inputs` are presented. -/
def presented (inputs : List Input) : State := { block .r4 with inputs := inputs }

/-- The responses after a next state. -/
def responsesAfter : Host.Outcome State Fault Refusal → Option (List Response)
  | .next s => some s.responses
  | .fault _ => none
  | .refused _ => none

/-- The one response of an instruction run on an idle block. -/
def run (s : State) (i : Instr) : Option (List Response) := responsesAfter (exec i s)

def ok (value : Value) (width : Option Nat) : Option (List Response) :=
  some [{ tag := 1, status := .ok, value := some value, width := width, info := none }]

def err (status : Status) (info : Info) : Option (List Response) :=
  some [{ tag := 1, status := status, value := none, width := none, info := some info }]

/-! ## WellFormed refuses each ill-formed term -/

theorem test_wf_bvDecode_empty : (Instr.bvDecode 1 []).wf = false := by decide
theorem test_wf_boothDigits_empty : (Instr.boothDigits 1 []).wf = false := by decide
theorem test_wf_cpaFull_empty : (Instr.cpaFull 1 [[true], []] 1).wf = false := by decide
theorem test_wf_cpaTrunc_empty : (Instr.cpaTrunc 1 [[]] 1).wf = false := by decide
theorem test_wf_fields_empty :
    (Fields.bv []).wf = false ∧ (Fields.cpa [[true], []] 1).wf = false := by decide
theorem test_wf_config_zero_operand_bits :
    (Config.mk .r4 (some 0)).wf = false ∧ construct 4 (some 0) = none ∧ construct 6 none = none := by
  decide

/-! ## Decoding: the codes of 30 R62, written out bit by bit, with operand fields -/

theorem test_decode_mulFull :
    (decode .external ⟨1, 0b0000#4, .mul 7 12 0⟩).toOption = some (.mulFull 1 7 12 0) := by decide
theorem test_decode_mulTrunc :
    (decode .external ⟨2, 0b0001#4, .mul 20 20 8⟩).toOption = some (.mulTrunc 2 20 20 8) := by decide
theorem test_decode_bvEncode :
    (decode .subBlock ⟨3, 0b1000#4, .enc (-3) 5⟩).toOption = some (.bvEncode 3 (-3) 5) := by decide
theorem test_decode_bvDecode :
    (decode .subBlock ⟨4, 0b1001#4, .bv (bv [0, 1, 0, 1])⟩).toOption =
      some (.bvDecode 4 [true, false, true, false]) := by decide
theorem test_decode_boothDigits :
    (decode .subBlock ⟨5, 0b1010#4, .bv (bv [0, 0, 1, 1, 0, 0])⟩).toOption =
      some (.boothDigits 5 [false, false, true, true, false, false]) := by decide
theorem test_decode_ppGen :
    (decode .subBlock ⟨6, 0b1011#4, .pp 7 (-1) 1 12⟩).toOption = some (.ppGen 6 7 (-1) 1 12) := by
  decide
theorem test_decode_cpaFull :
    (decode .subBlock ⟨7, 0b1100#4, .cpa [bv [0, 1, 1, 1]] 4⟩).toOption =
      some (.cpaFull 7 [[true, true, true, false]] 4) := by decide
theorem test_decode_cpaTrunc :
    (decode .subBlock ⟨8, 0b1101#4, .cpa [bv [0, 1]] 1⟩).toOption =
      some (.cpaTrunc 8 [[true, false]] 1) := by decide

/-- Each row of the opcode table, as the host writes its word. -/
theorem test_decode_table_words :
    decodeTableWord 8 0x0 = some (.mulFull 0 0 0 0) ∧ decodeTableWord 8 0x1 = some (.mulTrunc 0 0 0 0) ∧
    decodeTableWord 8 0x8 = some (.bvEncode 0 0 0) ∧ decodeTableWord 8 0x9 = some (.bvDecode 0 [false]) ∧
    decodeTableWord 8 0xA = some (.boothDigits 0 [false]) ∧
    decodeTableWord 8 0xB = some (.ppGen 0 0 0 0 0) ∧ decodeTableWord 8 0xC = some (.cpaFull 0 [] 0) ∧
    decodeTableWord 8 0xD = some (.cpaTrunc 0 [] 0) := by decide

/-- The placed word's instruction is the one the next step runs: `MUL.FULL 0, 0` has width 4 under radix-4
(95 P4), and a width of 0 is refused (41 R84). -/
theorem test_step_of_fetch_word :
    responsesAfter (step (State.reset.withFetchWord 8 0x0)) =
      some [{ tag := 0, status := .ok, value := some (.int 0), width := some 4, info := none }] ∧
    responsesAfter (step (State.reset.withFetchWord 8 0x8)) =
      some [{ tag := 0, status := .errWidth, value := none, width := none,
              info := some (.width .V 0 0) }] := by decide

/-- 95, section 2.6: reserved codes on either interface, and a sub-block code at the external one. -/
theorem test_illegal_op :
    responsesAfter (step (presented [.request .subBlock ⟨1, 0x5#4, .bv []⟩])) =
      err .errIllegalOp (.illegalOp 0x5#4) ∧
    responsesAfter (step (presented [.request .external ⟨1, 0x8#4, .enc (-3) 5⟩])) =
      err .errIllegalOp (.illegalOp 0x8#4) := by decide

/-! ## One step of each instruction (95, sections 2.1 to 2.5) -/

theorem test_mulFull_r4 : run (block .r4) (.mulFull 1 7 12 0) = ok (.int 84) (some 12) := by decide
theorem test_mulFull_r8 : run (block .r8) (.mulFull 1 3 (-5) 0) = ok (.int (-15)) (some 12) := by decide
theorem test_mulTrunc :
    run (block .r8) (.mulTrunc 1 (-3) 3 3) = ok (.int (-2)) (some 3) ∧
    run (block .r4) (.mulTrunc 1 (-31) (-23) 6) = ok (.int 11) (some 6) := by decide
theorem test_mulTrunc_checks :
    run (block .r4) (.mulTrunc 1 500 3 0) = err .errArg (.arg .n 0) ∧
    run (block .r4) (.mulTrunc 1 200 300 8) = err .errWidth (.width .X 200 8) ∧
    run (ported 8) (.mulTrunc 1 1 (-129) 0) = err .errWidth (.width .Y (-129) 8) := by decide
theorem test_bvEncode :
    run (block .r8) (.bvEncode 1 (-3) 5) = ok (.bits (bv [1, 1, 1, 1, 0, 1])) none ∧
    run (block .r4) (.bvEncode 1 (-8) 4) = ok (.bits (bv [1, 0, 0, 0])) none := by decide
theorem test_bvEncode_width :
    run (block .r4) (.bvEncode 1 8 4) = err .errWidth (.width .V 8 4) ∧
    run (block .r8) (.bvEncode 1 64 5) = err .errWidth (.width .V 64 6) := by decide
theorem test_bvDecode :
    run (block .r4) (.bvDecode 1 (bv [0, 0, 0, 0, 0, 1, 0, 1, 0, 1, 0, 0])) = ok (.int 84) (some 12) ∧
    run (block .r4) (.bvDecode 1 (bv [1, 0, 0])) = ok (.int (-4)) (some 3) := by decide
theorem test_boothDigits :
    run (block .r4) (.boothDigits 1 (bv [0, 0, 1, 1, 0, 0])) = ok (.ints [0, -1, 1]) none ∧
    run (block .r8) (.boothDigits 1 (bv [1, 1, 0, 1, 1, 0, 1, 0, 1])) = ok (.ints [-3, -1, -1]) none := by
  decide
theorem test_boothDigits_index :
    run (block .r8) (.boothDigits 1 (bv [1, 1, 1, 1, 1, 1, 1, 1])) =
      err .errBoothIndex (.boothIndex 2 8 8) ∧
    run (block .r4) (.boothDigits 1 (bv [0, 1, 1])) = err .errBoothIndex (.boothIndex 1 3 3) := by decide
theorem test_ppGen :
    run (block .r4) (.ppGen 1 7 (-1) 1 12) =
      ok (.bits (bv [1, 1, 1, 1, 1, 1, 1, 0, 0, 1, 0, 0])) none ∧
    run (block .r8) (.ppGen 1 (-5) (-3) 0 6) = ok (.bits (bv [0, 0, 1, 1, 1, 1])) none := by decide
theorem test_ppGen_checks :
    run (block .r4) (.ppGen 1 1 5 (-1) 0) = err .errDigitRange (.digitRange (-1) 5) ∧
    run (block .r4) (.ppGen 1 1 1 (-1) 0) = err .errArg (.arg .i (-1)) ∧
    run (block .r4) (.ppGen 1 64 2 0 8) = err .errWidth (.width .V 128 8) := by decide
theorem test_cpaFull :
    run (block .r4) (.cpaFull 1 [bv [1, 1, 1, 1], bv [0, 0, 0, 0, 0, 0, 0, 1]] 8) =
      ok (.int 16) (some 8) ∧
    run (block .r8) (.cpaFull 1 [] 4) = ok (.int 0) (some 4) := by decide
theorem test_cpaFull_carry :
    run (block .r4) (.cpaFull 1 [bv [1, 1, 1], bv [1, 1, 1], bv [1, 1, 1]] 3) =
      ok (.int (-3)) (some 3) ∧
    run (block .r4) (.cpaFull 1 [bv [1]] 0) = err .errArg (.arg .t 0) := by decide
theorem test_cpaTrunc :
    run (block .r4) (.cpaTrunc 1 [bv [0, 1, 1, 0], bv [0, 0, 1, 1]] 2) = ok (.int (-2)) (some 2) ∧
    run (block .r4) (.cpaTrunc 1 [bv [1]] (-3)) = err .errArg (.arg .t (-3)) := by decide
theorem test_cpaTrunc_seed_carry :
    run (block .r8) (.cpaTrunc 1 [bv [1, 1, 1, 1], bv [1, 1, 1, 1], bv [1, 1, 1, 1]] 2) =
      ok (.int (-1)) (some 2) := by decide

/-! ## Operations in flight: a small multiplication by hand

`MUL.FULL -1, -1` under radix-4: `bl = 2`, `Y = 0b11`, digits `[-1]`, one partial product `0b0001`, four
columns, result 1. -/

/-- The operation after its partial products and `k` column steps, with no carry and the bits `res`. -/
def midway (k : Nat) (res : Bits) : Op :=
  { request := .mulFull 3 (-1) (-1) 0
    width := some 2
    Y := some [true, true]
    digits := some [-1]
    pps := some [[true, false, false, false]]
    sum := some { c := k, carry := 0, res := res, phase := .HIGH }
    result := none }

/-- The same operation with its result decoded: its next step answers. -/
def finished : Op := { midway 4 [true, false, false, false] with result := some 1 }

/-- A radix-4 block with one operation in each stage in flight, two requests without a function to be
answered, and `inputs` presented. -/
def busy (inputs : List Input) : State :=
  { cfg := { radix := .r4, operandBits := none }
    inputs := inputs
    inFlight := [Op.start (.mulFull 2 (-1) (-1) 0), midway 2 [true, false], finished,
      Op.start (.cpaTrunc 4 [[true]] 1), Op.start (.bvEncode 5 (-3) 5)]
    rejected := [{ tag := 6, fn := 0x2#4 }, { tag := 7, fn := 0x9#4 }]
    responses := [{ tag := 1, status := .ok, value := some (.int 84), width := some 12, info := none }] }

theorem test_advance_column_step :
    (midway 2 [true, false]).advance { radix := .r4, operandBits := none } =
      .running (midway 3 [true, false, false]) := by decide

theorem test_advance_decodes_and_answers :
    (midway 4 [true, false, false, false]).advance { radix := .r4, operandBits := none } =
      .running finished ∧
    finished.advance { radix := .r4, operandBits := none } = .answered (.ok (.int 1) (some 4)) := by decide

/-- A launched request without a function waits, and the outside may have another answered before it
(20 R51, R53: no order between independent responses). -/
theorem test_launch_without_function :
    (match step (presented [.launch .external ⟨1, 0xF#4, .bv []⟩]) with
      | .next s => some (s.rejected, s.inFlight, s.responses)
      | _ => none) = some ([{ tag := 1, fn := 0xF#4 }], [], []) ∧
    (match step (busy [.answer 1]) with
      | .next s => some (s.rejected, s.responses.map (fun r => (r.tag, r.status)))
      | _ => none) = some ([{ tag := 6, fn := 0x2#4 }], [(1, .ok), (7, .errIllegalOp)]) := by decide

/-- A single operation in flight without any input is answered all the same (10 R30): `BV.ENCODE -3, 5`
(41 R84). -/
theorem test_goes_on_without_inputs :
    responsesAfter (step { block .r4 with inFlight := [Op.start (.bvEncode 1 (-3) 5)] }) =
      ok (.bits (bv [1, 1, 1, 1, 0, 1])) none := by decide

/-! ## Witnesses: concrete inputs that meet the hypotheses of each obligation -/

theorem witness_DecodeAndEncodeAreInverse :
    (Instr.cpaFull 1 [[true], [false, true]] (-1)).wf = true ∧ (Instr.mulFull 1 7 12 5).wf = true ∧
    decode .external ⟨1, 0x0#4, .mul 7 12 5⟩ = .ok (.mulFull 1 7 12 5) ∧
    decode .subBlock ⟨1, 0xD#4, .cpa [[true]] 1⟩ = .ok (.cpaTrunc 1 [[true]] 1) :=
  ⟨rfl, rfl, rfl, rfl⟩

theorem witness_WrittenRequestReadsBack :
    (Instr.cpaFull 1 [[true], [false, true]] (-12)).wf = true ∧
      (∀ t x y n, Instr.cpaFull 1 [[true], [false, true]] (-12) = .mulFull t x y n → n = 0) ∧
    (Instr.mulFull 1 (-7) 12 0).wf = true ∧
      (∀ t x y n, Instr.mulFull 1 (-7) 12 0 = .mulFull t x y n → n = 0) := by
  refine ⟨rfl, fun _ _ _ _ h => (nomatch h), rfl, fun _ _ _ _ h => (by cases h; rfl)⟩

theorem witness_CodeWithoutFunctionIsAnsweredIllegalOp :
    (presented [.request .subBlock ⟨1, 0x2#4, .mul 1 2 3⟩]).inputs =
      .request .subBlock ⟨1, 0x2#4, .mul 1 2 3⟩ :: [] ∧
    (presented [.request .external ⟨1, 0xD#4, .bv []⟩]).inputs =
      .request .external ⟨1, 0xD#4, .bv []⟩ :: [] ∧
    (0x2#4 : FnCode) ∈ [0x2#4, 0x3#4, 0x4#4, 0x5#4, 0x6#4, 0x7#4, 0xE#4, 0xF#4] ∧
    (0xF#4 : FnCode) ∈ [0x2#4, 0x3#4, 0x4#4, 0x5#4, 0x6#4, 0x7#4, 0xE#4, 0xF#4] ∧
    (0x8#4 : FnCode).getLsbD 3 = true ∧ (0xD#4 : FnCode).getLsbD 3 = true := by decide

theorem witness_LaunchedCodeWithoutFunctionWaitsForItsAnswer :
    (presented [.launch .external ⟨1, 0xF#4, .bv []⟩]).inputs =
      .launch .external ⟨1, 0xF#4, .bv []⟩ :: [] ∧
    (0xF#4 : FnCode) ∈ [0x2#4, 0x3#4, 0x4#4, 0x5#4, 0x6#4, 0x7#4, 0xE#4, 0xF#4] ∧
    (busy [.answer 0, .reset]).inputs = .answer 0 :: [.reset] ∧
    (busy [.answer 0, .reset]).rejected[0]? =
      some { tag := (Request.mk 6 0x2#4 (.bv [])).tag, fn := (Request.mk 6 0x2#4 (.bv [])).fn } ∧
    (0x2#4 : FnCode) ∈ [0x2#4, 0x3#4, 0x4#4, 0x5#4, 0x6#4, 0x7#4, 0xE#4, 0xF#4] ∧
    (busy [.answer 1]).inputs = .answer 1 :: [] ∧
    (busy [.answer 1]).rejected[1]? =
      some { tag := (Request.mk 7 0x9#4 (.bv [])).tag, fn := (Request.mk 7 0x9#4 (.bv [])).fn } ∧
    (0x9#4 : FnCode).getLsbD 3 = true := by decide

theorem witness_StepRunsTheDecodedRequest :
    (presented [.request .external ⟨1, 0x1#4, .mul 20 20 8⟩, .reset]).inputs =
      .request .external ⟨1, 0x1#4, .mul 20 20 8⟩ :: [.reset] ∧
    decode .external ⟨1, 0x1#4, .mul 20 20 8⟩ = .ok (.mulTrunc 1 20 20 8) := ⟨rfl, rfl⟩

theorem witness_MalformedRequestIsRefused :
    (presented [.request .subBlock ⟨1, 0x9#4, .enc 1 2⟩]).inputs =
      .request .subBlock ⟨1, 0x9#4, .enc 1 2⟩ :: [] ∧
    opcodeOf 0x9#4 = some .bvDecode ∧ Interface.subBlock.offers 0x9#4 = true ∧
    Opcode.bvDecode.format ≠ (Fields.enc 1 2).format ∧
    Opcode.bvDecode.format = (Fields.bv []).format ∧ (Fields.bv []).wf = false := by decide

theorem witness_IdleBlockPerformsNothing :
    State.reset.inputs = [] ∧ State.reset.inFlight = [] ∧ State.reset.rejected = [] := by decide

theorem witness_BlockGoesOnWithoutInputs :
    (busy []).inputs = [] ∧
    (busy []).rejected = { tag := 6, fn := 0x2#4 } :: [{ tag := 7, fn := 0x9#4 }] ∧
    ({ busy [] with rejected := [] }).inputs = [] ∧ ({ busy [] with rejected := [] }).rejected = [] := by
  decide

theorem witness_ResetIsIdleAndMeetsTheInvariant :
    (Config.mk .r8 none).wf = true ∧ (Config.mk .r4 (some 1)).wf = true := by decide

theorem witness_ResetAbandonsOperationsInFlight :
    (busy [.reset, .advance 0]).inputs = .reset :: [.advance 0] ∧ (busy []).inFlight ≠ [] ∧
      (busy []).rejected ≠ [] := by decide

theorem witness_OnlyLegalBlocksAreBuilt :
    construct 4 none = some (block .r4) ∧
    construct 8 (some 1) = some (State.idle { radix := .r8, operandBits := some 1 }) := by decide

theorem witness_StepKeepsConfigurationAndResponses :
    ∃ s', step (busy [.advance 2]) = .next s' ∧ s'.responses.length = 2 := ⟨_, rfl, rfl⟩

theorem witness_EveryRequestGetsExactlyOneResponse :
    (Instr.boothDigits 1 [true]).wf = true ∧ (ported 1).cfg.wf = true := by decide

theorem witness_ExecLeavesEverythingElse :
    ∃ t, exec (.ppGen 6 7 (-1) 1 12) (busy [.reset]) = .next t := ⟨_, rfl⟩

theorem witness_ResponseDependsOnRequestAndConfigurationOnly :
    (busy [.reset]).cfg = (block .r4).cfg ∧ busy [.reset] ≠ block .r4 ∧
    ∃ t, exec (.bvDecode 1 [true]) (busy [.reset]) = .next t := ⟨rfl, by decide, _, rfl⟩

theorem witness_EmptyBitVectorFaults :
    (Instr.bvDecode 1 []).wf = false ∧ (Instr.boothDigits 1 []).wf = false ∧
    (Instr.cpaFull 1 [[true], []] 0).wf = false ∧ (Instr.cpaTrunc 1 [[]] 1).wf = false := by decide

theorem witness_BitlenIsTheLeastLength :
    (-8 : Int).natAbs < 2 ^ 4 ∧ (0 : Int).natAbs < 2 ^ 0 ∧ bitlen (-8) = 4 ∧ bitlen 0 = 0 := by decide

theorem witness_RoundUpIsTheLeastMultiple :
    (groupSize .r8 : Int) ∣ 6 ∧ (5 : Int) ≤ 6 ∧ (1 : Int) ≤ 5 ∧ roundUp 5 (groupSize .r8) = 6 ∧
      roundUp 1 (groupSize .r8) = 3 := by decide

theorem witness_EncodeAnswersThePattern :
    (0 : Int) < 1 ∧ (1 : Int) ≤ 4 ∧ fits 8 (roundUp 4 (groupSize (block .r4).cfg.radix)) = false ∧
    fits (-8) (roundUp 4 (groupSize (block .r4).cfg.radix)) = true ∧
    fits 7 (roundUp 4 (groupSize (block .r4).cfg.radix)) = true := by decide

theorem witness_EncodedVectorHoldsTheRemainder :
    encodeBits .r4 (-3) 5 = .ok [true, false, true, true, true, true] := rfl

theorem witness_DecodeAnswersTheSignedValue : ([true] : Bits) ≠ [] ∧ ([false, true] : Bits) ≠ [] := by
  decide

theorem witness_DecodeAfterEncodeIsTheValue :
    encodeBits .r8 (-4) 3 = .ok [false, false, true] ∧ encodeBits .r8 3 1 = .ok [true, true, false] :=
  ⟨rfl, rfl⟩

theorem witness_EncodeAfterDecodeIsTheVector :
    ([true, false, true] : Bits) ≠ [] ∧ groupSize .r8 ∣ ([true, false, true] : Bits).length ∧
      ¬ groupSize .r4 ∣ ([true, false, true] : Bits).length := by decide

theorem witness_SignExtensionKeepsTheValue :
    ([true] : Bits) ≠ [] ∧ ([true] : Bits).length ≤ 1 ∧ ([true] : Bits).length ≤ 5 := by decide

theorem witness_Radix4DigitTable :
    2 * 0 + 1 < (bv [1, 0]).length ∧ 2 * 1 + 1 < (bv [0, 1, 1, 0]).length := by decide

theorem witness_Radix8DigitTable :
    3 * 0 + 2 < (bv [1, 0, 0]).length ∧ 3 * 1 + 2 < (bv [0, 1, 1, 1, 0, 0]).length := by decide

theorem witness_BoothDigitsFollowThePseudocode :
    bv [1, 0, 0] ≠ [] ∧ groupSize (block .r8).cfg.radix ∣ (bv [1, 0, 0]).length ∧
      ¬ groupSize (block .r4).cfg.radix ∣ (bv [1, 0, 0]).length := by decide

theorem witness_BoothDigitsNeverLeaveTheirRange :
    boothDigits .r8 (bv [1, 0, 0]) = .ok [-4] ∧ (-4 : Int) ∈ [(-4 : Int)] := ⟨rfl, by decide⟩

theorem witness_DigitsSumToTheValue :
    bv [0, 0, 1, 1, 0, 0] ≠ [] ∧ boothDigits .r4 (bv [0, 0, 1, 1, 0, 0]) = .ok [0, -1, 1] :=
  ⟨by decide, rfl⟩

theorem witness_DigitsSelectMultiples :
    digitInRange .r4 3 = false ∧ digitInRange .r8 (-5) = false := by decide

theorem witness_PartialProductFollowsThePseudocode :
    digitInRange (block .r4).cfg.radix 3 = false ∧ digitInRange (block .r4).cfg.radix (-2) = true ∧
    (-1 : Int) < 0 ∧ (0 : Int) ≤ 0 ∧ (0 : Int) < 1 ∧ (1 : Int) ≤ 8 ∧
    fits (-2 * (-64) * 2 ^ (groupSize (block .r4).cfg.radix * (0 : Int).toNat))
      (roundUp 8 (groupSize (block .r4).cfg.radix)) = false ∧
    fits (-2 * 64 * 2 ^ (groupSize (block .r4).cfg.radix * (0 : Int).toNat))
      (roundUp 8 (groupSize (block .r4).cfg.radix)) = true := by decide

theorem witness_ColumnStepFollowsThePseudocode :
    1 = (([[true], [false]] : List Bits).filter (fun p => decide (0 < p.length) && p.getD 0 false)).length ∧
    3 = (2 : Nat) + 1 := by decide

theorem witness_EngineTakesExactlyTheColumnSteps : (0 : Nat) < 1 ∧ (1 : Nat) < 2 := by decide

theorem witness_CarryAndColumnSumAreBounded :
    (3 : Nat) ≤ 3 ∧
    (sumLoop [[true, true, true], [true, true, true], [true, true, true]] 0 3 3 (sumStart 0)).carry =
      2 := by decide

theorem witness_CpaFullFollowsThePseudocode :
    (∀ p ∈ ([[true], [false, true]] : List Bits), p ≠ []) ∧ (∀ p ∈ ([] : List Bits), p ≠ []) ∧
    (0 : Int) < 1 ∧ (1 : Int) ≤ 1 := by decide

theorem witness_CpaTruncFollowsThePseudocode :
    (∀ p ∈ ([[true], [false, true]] : List Bits), p ≠ []) ∧ (-3 : Int) < 1 ∧ (1 : Int) ≤ 1 := by decide

theorem witness_EmittedBitsCarryAndLowBitsMakeTheSum : (0 : Nat) < 1 ∧ (2 : Nat) < 4 := by decide

theorem witness_CpaFullIsTheSumModuloItsWidth :
    (1 : Nat) ≤ 3 ∧ ∀ p ∈ ([[true, true, true], [true, true, true, false]] : List Bits), 3 ≤ p.length := by
  decide

theorem witness_TruncatedBitsAreTheFullEnginesHighBits : (1 : Nat) ≤ 1 := by decide

theorem witness_MulFullIsTheExactProduct :
    (∀ N : Nat, (block .r8).cfg.operandBits = some N → fits 3 N = true ∧ fits (-5) N = true) ∧
    (∀ N : Nat, (ported 8).cfg.operandBits = some N → fits 127 N = true ∧ fits (-128) N = true) := by
  refine ⟨fun N h => (nomatch h), fun N h => (by cases h; decide)⟩

theorem witness_MulTruncIsTheFloorOfTheProduct :
    (1 : Nat) ≤ 1 ∧ fits (-1) (1 : Nat) = true ∧ fits 0 (1 : Nat) = true ∧
    (∀ N : Nat, (ported 8).cfg.operandBits = some N → fits (-1) N = true ∧ fits 0 N = true) := by
  refine ⟨by decide, by decide, by decide, fun N h => by cases h; decide⟩

theorem witness_OperandPortsAreCheckedFirst :
    (ported 8).cfg.operandBits = some 8 ∧ fits 128 (8 : Nat) = false ∧ fits 127 (8 : Nat) = true ∧
      fits (-129) (8 : Nat) = false := by decide

theorem witness_MulTruncChecksItsRequestInOrder :
    (∀ N : Nat, (ported 10).cfg.operandBits = some N → fits 128 N = true ∧ fits (-129) N = true) ∧
    (0 : Int) < 1 ∧ (1 : Int) ≤ 8 ∧ fits 128 8 = false ∧ fits 127 8 = true ∧ fits (-129) 8 = false := by
  refine ⟨fun N h => (by cases h; decide), by decide⟩

theorem witness_RadixDoesNotChangeTheProduct : (ported 4).cfg.wf = true := by decide

theorem witness_LaunchedRequestGetsItsOwnOperation :
    (busy [.launch .subBlock ⟨9, 0xC#4, .cpa [[true]] 1⟩]).inputs =
      .launch .subBlock ⟨9, 0xC#4, .cpa [[true]] 1⟩ :: [] ∧
    decode .subBlock ⟨9, 0xC#4, .cpa [[true]] 1⟩ = .ok (.cpaFull 9 [[true]] 1) := ⟨rfl, rfl⟩

theorem witness_AdvanceTouchesNoOtherOperation :
    (∃ t, step (busy [.advance 1]) = .next t) ∧ (∃ t, step (busy [.advance 2]) = .next t) ∧
    (∃ t, step (busy [.advance 5]) = .next t) := ⟨⟨_, rfl⟩, ⟨_, rfl⟩, ⟨_, rfl⟩⟩

theorem midway_inv : MulInv .r4 (-1) (-1)
    ((requirePorts { radix := .r4, operandBits := none } (-1) (-1)).map
      fun _ => workingLength .r4 (-1) (-1)) (fun _ => 0) (fun bl => 2 * bl) (midway 2 [true, false]) where
  width := by rintro w ⟨⟩; rfl
  Y := by rintro Y ⟨⟩; exact ⟨2, rfl, rfl⟩
  digits := by rintro ds ⟨⟩; exact ⟨_, rfl, rfl⟩
  pps := by rintro p ⟨⟩; exact ⟨_, _, rfl, rfl, rfl⟩
  sum := by rintro S ⟨⟩; exact ⟨_, _, rfl, rfl, by decide, by decide⟩
  result := by rintro v ⟨⟩

theorem finished_inv : MulInv .r4 (-1) (-1)
    ((requirePorts { radix := .r4, operandBits := none } (-1) (-1)).map
      fun _ => workingLength .r4 (-1) (-1)) (fun _ => 0) (fun bl => 2 * bl) finished where
  width := by rintro w ⟨⟩; rfl
  Y := by rintro Y ⟨⟩; exact ⟨2, rfl, rfl⟩
  digits := by rintro ds ⟨⟩; exact ⟨_, rfl, rfl⟩
  pps := by rintro p ⟨⟩; exact ⟨_, _, rfl, rfl, rfl⟩
  sum := by rintro S ⟨⟩; exact ⟨_, _, rfl, rfl, by decide, by decide⟩
  result := by rintro v ⟨⟩; exact ⟨_, _, rfl, rfl, rfl, by decide⟩

theorem start_mulFull_inv : MulInv .r4 (-1) (-1)
    ((requirePorts { radix := .r4, operandBits := none } (-1) (-1)).map
      fun _ => workingLength .r4 (-1) (-1)) (fun _ => 0) (fun bl => 2 * bl)
    (Op.start (.mulFull 2 (-1) (-1) 0)) where
  width := by rintro w ⟨⟩
  Y := by rintro Y ⟨⟩
  digits := by rintro ds ⟨⟩
  pps := by rintro p ⟨⟩
  sum := by rintro S ⟨⟩
  result := by rintro v ⟨⟩

theorem start_cpaTrunc_inv : CpaInv [[true]] 1 1 2 (Op.start (.cpaTrunc 4 [[true]] 1)) where
  unused := ⟨rfl, rfl, rfl, rfl⟩
  sum := by rintro S ⟨⟩
  result := by rintro v ⟨⟩

/-- A state that meets the invariant with an operation in every stage in flight. -/
theorem busy_inv (inputs : List Input) : (busy inputs).Inv where
  cfg := rfl
  inFlight := by
    intro o ho
    simp only [busy, List.mem_cons, List.not_mem_nil, or_false] at ho
    rcases ho with rfl | rfl | rfl | rfl | rfl
    · exact ⟨rfl, start_mulFull_inv⟩
    · exact ⟨rfl, midway_inv⟩
    · exact ⟨rfl, finished_inv⟩
    · exact ⟨rfl, start_cpaTrunc_inv⟩
    · exact ⟨rfl, rfl⟩
  responses := by
    intro r hr
    simp only [busy, List.mem_cons, List.not_mem_nil, or_false] at hr
    subst hr; decide

theorem witness_StepKeepsTheInvariant :
    (busy [.advance 1]).Inv ∧ ∃ t, step (busy [.advance 1]) = .next t := ⟨busy_inv _, _, rfl⟩

theorem witness_NoStepFaultsUnderTheInvariant : (busy [.advance 2, .reset]).Inv :=
  busy_inv _

theorem witness_SteppedOperationAnswersAsTheWhole :
    (busy [.advance 1]).Inv ∧ (busy [.advance 1]).inputs = .advance 1 :: [] ∧
      (busy [.advance 1]).inFlight[1]? = some (midway 2 [true, false]) ∧
    (busy [.advance 2]).Inv ∧ (busy [.advance 2]).inputs = .advance 2 :: [] ∧
      (busy [.advance 2]).inFlight[2]? = some finished :=
  ⟨busy_inv _, rfl, rfl, busy_inv _, rfl, rfl⟩

/-- The hand count: two columns, the decoding and the answer are left. -/
theorem witness_OperationInFlightAnswersInItsStepsLeft :
    (busy [.advance 1, .advance 1, .advance 1, .advance 1, .reset]).Inv ∧
    (busy [.advance 1, .advance 1, .advance 1, .advance 1, .reset]).inFlight[1]? =
      some (midway 2 [true, false]) ∧
    (busy [.advance 1, .advance 1, .advance 1, .advance 1, .reset]).inputs =
      List.replicate ((midway 2 [true, false]).stepsLeft { radix := .r4, operandBits := none })
        (.advance 1) ++ [.reset] ∧
    (1 : Int) ≤ 1 ∧ fits (-1) 1 = true ∧ fits 0 1 = true :=
  ⟨busy_inv _, rfl, rfl, by decide, by decide, by decide⟩

theorem witness_AcceptedRequestsAreAnsweredWithoutInputs :
    (busy []).Inv ∧ (busy []).inputs = [] ∧
    (busy []).rejected[0]? = some { tag := 6, fn := 0x2#4 } ∧
    (busy []).rejected[1]? = some { tag := 7, fn := 0x9#4 } ∧
    (busy []).inFlight[4]? = some (Op.start (.bvEncode 5 (-3) 5)) :=
  ⟨busy_inv _, rfl, rfl, rfl, rfl⟩

theorem witness_UndefinedTransientFaults :
    (midway 2 [true]).request = .mulFull 3 (-1) (-1) 0 ∧
    ({ midway 2 [true] with width := none }).width = none ∧
    (({ midway 2 [true] with width := none }).sum ≠ none ∧
      ({ midway 2 [true] with width := none }).pps ≠ none) ∧
    ({ finished with width := none }).result ≠ none ∧
    ({ midway 2 [true] with pps := none }).result = none ∧
    ({ midway 2 [true] with pps := none }).sum ≠ none ∧
    ({ midway 2 [true] with pps := none }).pps = none ∧
    ({ midway 2 [true] with sum := none, pps := none }).sum = none ∧
    ({ midway 2 [true] with sum := none, pps := none }).digits ≠ none := by decide

theorem witness_SumInFlightStaysInBounds :
    (busy []).Inv ∧ midway 2 [true, false] ∈ (busy []).inFlight ∧
    (midway 2 [true, false]).sum = some { c := 2, carry := 0, res := [true, false], phase := .HIGH } :=
  ⟨busy_inv _, by simp [busy], rfl⟩

end Sys2Proof.Tests
end

section
/-! PROOFS. The family `20_memory.md`: an operation has no side effect (20 R49). -/

namespace Sys2Proof.Machine

/-- What `exec` answers on one state it answers on every state of the same configuration: the response is
made by `answerOf`, which sees the configuration and the instruction only. -/
theorem exec_next_transfers {i : Instr} {s t s' : State} (hcfg : s.cfg = t.cfg)
    (h : exec i s = .next s') :
    ∃ r, s' = s.returning r ∧ exec i t = .next (t.returning r) := by
  rw [exec_eq_finish] at h
  obtain ⟨r, hr, -, rfl⟩ := finish_next i.tag s h
  have hanswer : (answerOf t.cfg i).response i.tag = some r := hcfg ▸ hr
  exact ⟨r, rfl, by rw [exec_eq_finish, finish_of_response i.tag t hanswer]⟩

/-- Settles O16: `returning` is the update that the statement writes out, and `exec` ends every operation
with the answer of its request and configuration. -/
theorem responseDependsOnRequestAndConfigurationOnly :
    Obligations.ResponseDependsOnRequestAndConfigurationOnly := by
  unfold Obligations.ResponseDependsOnRequestAndConfigurationOnly
  intro i s t s' hcfg h
  exact exec_next_transfers hcfg h

end Sys2Proof.Machine
end

section
/-! PROOFS. The family `30_encoding.md`: the function codes (30 R62), the answer to a code without a function
(30 R64, 60 R191), the field `MUL.FULL` ignores (30 R66). -/

namespace Sys2Proof

/-- The row of 30 R62 for each function: an assigned code names its function's mnemonic and format. -/
theorem row_of_code (op : Opcode) :
    (opcodeOf op.code).map (fun o => (o.mnemonic, o.format)) = some (op.mnemonic, op.format) := by
  rw [opcodeOf_code]; rfl

/-- The reserved codes of 30 R64, by going through the sixteen codes of four bits. -/
theorem opcodeOf_eq_none_iff_reserved : ∀ fn : FnCode, opcodeOf fn = none ↔
    fn ∈ [0x2#4, 0x3#4, 0x4#4, 0x5#4, 0x6#4, 0x7#4, 0xE#4, 0xF#4] := by
  decide

/-- Settles O1: the eight rows are `row_of_code` for each function, and the reserved codes are the rest. -/
theorem assignedCodesAndReservedCodes : Obligations.AssignedCodesAndReservedCodes := by
  unfold Obligations.AssignedCodesAndReservedCodes
  refine ⟨?_, opcodeOf_eq_none_iff_reserved⟩
  simp only [List.forall_mem_cons]
  exact ⟨row_of_code .mulFull, row_of_code .mulTrunc, row_of_code .bvEncode, row_of_code .bvDecode,
    row_of_code .boothDigits, row_of_code .ppGen, row_of_code .cpaFull, row_of_code .cpaTrunc,
    List.forall_mem_nil _⟩

/-- 30 R63: only the external interface withholds codes, those of the sub-block domain. -/
theorem offers_eq_false_iff {iface : Interface} {fn : FnCode} :
    iface.offers fn = false ↔ iface = .external ∧ fn.getLsbD 3 = true := by
  cases iface <;> simp [Interface.offers, domainBit]

/-- The code is judged before any operand field is read (60 R191, R199): without a function at the interface
the request is rejected for its code, whatever its fields are. -/
theorem decode_of_no_function {iface : Interface} {r : Request}
    (h : opcodeOf r.fn = none ∨ iface.offers r.fn = false) :
    decode iface r = .error (.illegalOp r.fn) := by
  unfold decode
  cases ho : opcodeOf r.fn with
  | none => rfl
  | some op =>
    have hoffers : iface.offers r.fn = false := h.resolve_left (by simp [ho])
    simp [hoffers]

end Sys2Proof

namespace Sys2Proof.Machine

/-- Presented or launched, a request whose code has no function goes the way of its code. -/
theorem accept_of_no_function {iface : Interface} {r : Request}
    {run : Instr → Host.Outcome State Fault Refusal} {reject : FnCode → Host.Outcome State Fault Refusal}
    (h : opcodeOf r.fn = none ∨ iface.offers r.fn = false) :
    accept iface r run reject = reject r.fn := by
  unfold accept; rw [decode_of_no_function h]

/-- Settles O6: `errored` is the update that `raise` makes with the record of the code. -/
theorem codeWithoutFunctionIsAnsweredIllegalOp : Obligations.CodeWithoutFunctionIsAnsweredIllegalOp := by
  unfold Obligations.CodeWithoutFunctionIsAnsweredIllegalOp
  intro s iface r rest hin hcode
  have hno : opcodeOf r.fn = none ∨ iface.offers r.fn = false :=
    hcode.imp (opcodeOf_eq_none_iff_reserved r.fn).2 offers_eq_false_iff.2
  have hstep : step s = .next (raise r.tag (.illegalOp r.fn) { s with inputs := rest }) :=
    (step_of_input hin).trans (accept_of_no_function hno)
  exact ⟨hstep, rfl⟩

/-- Settles O45: the answer of `MUL.FULL` is a function of `x` and `y` only, and a request of integers is well
formed whatever they are. -/
theorem mulFullIgnoresItsSplitField : Obligations.MulFullIgnoresItsSplitField := by
  unfold Obligations.MulFullIgnoresItsSplitField
  intro s tag x y n m
  have hexec (k : Int) : exec (.mulFull tag x y k) s = finish tag (answerMulFull s.cfg x y) s :=
    exec_eq_finish (.mulFull tag x y k) s
  have hoffers (iface : Interface) : iface.offers 0x0#4 = true := by cases iface <;> decide
  exact ⟨(hexec n).trans (hexec m).symm,
    fun iface => decode_ok_iff.2 ⟨hoffers iface, rfl, rfl, rfl, rfl⟩⟩

end Sys2Proof.Machine
end

section
/-! PROOFS. The family `41_codec.md`: bit lengths (41 R80), rounded widths (41 R81), `BV.ENCODE` (41 R84) and `BV.DECODE`
(41 R86). -/

namespace Sys2Proof.Machine

/-- Only the magnitude counts (41 R80): both lengths have the same upper bounds. -/
theorem bitlen_neg (v : Int) : bitlen (-v) = bitlen v :=
  eq_of_forall_ge_iff fun k => by rw [bitlen_le_iff, bitlen_le_iff, Int.natAbs_neg]

/-- A value in two's complement takes one bit more than its magnitude, the sign (41 R80, 00 R12). -/
theorem fits_bitlen_add_one (v : Int) : fits v (bitlen v + 1) = true := by
  have hmag : ((v.natAbs : Nat) : Int) < 2 ^ bitlen v := by exact_mod_cast natAbs_lt_two_pow_bitlen v
  exact (fits_succ v (bitlen v)).2 ⟨by omega, by omega⟩

/-- Settles O19: leastness is `bitlen_le_iff` read in both directions. -/
theorem bitlenIsTheLeastLength : Obligations.BitlenIsTheLeastLength := by
  unfold Obligations.BitlenIsTheLeastLength
  exact fun v => ⟨natAbs_lt_two_pow_bitlen v, fun k => (bitlen_le_iff v k).2, bitlen_neg v,
    fits_bitlen_add_one v⟩

/-- Among the multiples of `g` not below `a`, `round_up(a, g)` is the least: it is less than `g` above `a`, and
two different multiples are at least `g` apart. -/
theorem roundUp_le_of_dvd {a m : Int} {r : Radix} (hdvd : (groupSize r : Int) ∣ m) (hle : a ≤ m) :
    roundUp a (groupSize r) ≤ m := by
  obtain ⟨hround, -, hlt⟩ := roundUp_spec a r
  by_contra hm
  have hgap : (groupSize r : Int) ≤ roundUp a (groupSize r) - m :=
    Int.le_of_dvd (by omega) (dvd_sub hround hdvd)
  omega

/-- Settles O20: a positive multiple of `g` is at least `g`. -/
theorem roundUpIsTheLeastMultiple : Obligations.RoundUpIsTheLeastMultiple := by
  unfold Obligations.RoundUpIsTheLeastMultiple
  intro a r
  obtain ⟨hdvd, hle, -⟩ := roundUp_spec a r
  exact ⟨hdvd, hle, fun _ => roundUp_le_of_dvd, fun ha => Int.le_of_dvd (by omega) hdvd⟩

/-- `ENCODE` judges the requested width before it rounds it (41 R84). -/
theorem encodeBits_of_width_lt_one {r : Radix} {v w : Int} (hw : w < 1) :
    encodeBits r v w = .error (.width .V v w) := if_pos hw

theorem encodeBits_of_not_fits {r : Radix} {v w : Int} (hw : 1 ≤ w)
    (hfits : fits v (roundUp w (groupSize r)) = false) :
    encodeBits r v w = .error (.width .V v (roundUp w (groupSize r))) := by
  unfold encodeBits
  simp [hfits, not_lt.2 hw]

/-- Bit `k` of the low bits of `u` is `(u >> k) mod 2` (41 R84). -/
theorem bitAt_lowBits {len k : Nat} (u : Nat) (hk : k < len) :
    bitAt (lowBits len u) k = (u : Int) / 2 ^ k % 2 := by
  have hget : (lowBits len u)[k]? = some (u >>> k % 2 == 1) := by
    rw [List.getElem?_eq_getElem (by simpa using hk), lowBits_getElem]
  have hcast : (u : Int) / 2 ^ k % 2 = ((u / 2 ^ k % 2 : Nat) : Int) := by push_cast; rfl
  rw [bitAt, hget, hcast, Nat.shiftRight_eq_div_pow]
  rcases Nat.mod_two_eq_zero_or_one (u / 2 ^ k) with h | h <;> simp [h]

/-- An error of `ENCODE` is the response of `BV.ENCODE` (60 R197). -/
theorem exec_bvEncode_of_error {s : State} {v w : Int} {e : Info} (tag : Tag)
    (h : encodeBits s.cfg.radix v w = .error e) :
    exec (.bvEncode tag v w) s = .next (raise tag e s) := by
  rw [exec_eq_finish, answerOf, answerBvEncode, h]; rfl

theorem exec_bvEncode_of_ok {s : State} {v w : Int} {B : Bits} (tag : Tag)
    (h : encodeBits s.cfg.radix v w = .ok B) :
    exec (.bvEncode tag v w) s = .next (s.answered tag (.bits B) none) := by
  rw [exec_eq_finish, answerOf, answerBvEncode, h]; rfl

/-- The vector `ENCODE` accepts a value into: its length is the rounded width, its bits those of the pattern
`u` (41 R84), which is the nonnegative remainder of the value. -/
theorem encodeBits_pattern {r : Radix} {v w : Int} (hw : 1 ≤ w)
    (hfits : fits v (roundUp w (groupSize r)) = true) :
    ∃ B : Bits, encodeBits r v w = .ok B ∧ (B.length : Int) = roundUp w (groupSize r) ∧
      ∀ i, i < B.length → bitAt B i = ((if v < 0 then 2 ^ B.length + v else v) / 2 ^ i) % 2 := by
  refine ⟨_, encodeBits_ok_iff.2 ⟨hw, hfits, rfl⟩, ?_⟩
  obtain ⟨n, hn⟩ : ∃ n : Nat, roundUp w (groupSize r) = n :=
    Int.eq_ofNat_of_zero_le (by have := fits_pos hfits; omega)
  rw [hn] at hfits ⊢
  rw [Int.toNat_natCast, lowBits_length]
  refine ⟨rfl, fun i hi => ?_⟩
  have hpattern : ((v % 2 ^ n).toNat : Int) = if v < 0 then 2 ^ n + v else v := by
    rw [encode_pattern hfits, Int.toNat_of_nonneg (Int.emod_nonneg v (by positivity))]
  rw [bitAt_lowBits _ hi, hpattern]

/-- Settles O21: one clause for each end of `ENCODE`, carried to the response. -/
theorem encodeAnswersThePattern : Obligations.EncodeAnswersThePattern := by
  unfold Obligations.EncodeAnswersThePattern
  intro s tag v w
  refine ⟨fun hw => ?_, fun hw hfits => ?_, fun hw hfits => ?_⟩
  · exact exec_bvEncode_of_error tag (encodeBits_of_width_lt_one hw)
  · exact exec_bvEncode_of_error tag (encodeBits_of_not_fits hw hfits)
  · obtain ⟨B, hB, hlength, hbits⟩ := encodeBits_pattern hw hfits
    exact ⟨B, hlength, hbits, exec_bvEncode_of_ok tag hB⟩

theorem bitAt_cons_zero (b : Bool) (B : Bits) : bitAt (b :: B) 0 = b.toNat := by
  cases b <;> rfl

theorem bitAt_cons_succ (b : Bool) (B : Bits) (k : Nat) : bitAt (b :: B) (k + 1) = bitAt B k := rfl

/-- The unsigned value is the weighted sum of the bits that 41 R86 writes. -/
theorem sum_bitAt_eq_unsignedValue (B : Bits) :
    ((List.range B.length).map (fun i => bitAt B i * 2 ^ i)).sum = (unsignedValue B : Int) := by
  induction B with
  | nil => rfl
  | cons b B ih =>
    have hshift (i : Nat) : bitAt (b :: B) (i + 1) * 2 ^ (i + 1) = 2 * (bitAt B i * 2 ^ i) := by
      rw [bitAt_cons_succ]; ring
    simp [List.range_succ_eq_map, Function.comp_def, hshift, List.sum_map_mul_left, ih, bitAt_cons_zero]

/-- The sign bit is the bit at the top place (00 R10). -/
theorem bitAt_top_eq_one_iff (B : Bits) : bitAt B (B.length - 1) = 1 ↔ B.getLast? = some true := by
  rw [bitAt, ← List.getLast?_eq_getElem?]
  simp

/-- `DECODE` by the bit at the top place, as 41 R86 writes it. -/
theorem decodeBits_eq_of_top_bit (B : Bits) :
    decodeBits B = if bitAt B (B.length - 1) = 1 then (unsignedValue B : Int) - 2 ^ B.length
      else (unsignedValue B : Int) := by
  unfold decodeBits
  simp only [bitAt_top_eq_one_iff]

theorem decodeBits_range {B : Bits} (h : B.wf = true) :
    -(2 ^ (B.length - 1)) ≤ decodeBits B ∧ decodeBits B ≤ 2 ^ (B.length - 1) - 1 := by
  obtain ⟨-, hlo, hhi⟩ := (fits_iff _ _).1 (fits_decodeBits B h)
  have hpred : ((B.length : Int) - 1).toNat = B.length - 1 := by omega
  rw [hpred] at hlo hhi
  exact ⟨hlo, hhi⟩

/-- `BV.DECODE` of a vector that can be written raises nothing (41 R86). -/
theorem exec_bvDecode_of_wf (s : State) (tag : Tag) {B : Bits} (h : B.wf = true) :
    exec (.bvDecode tag B) s = .next (s.answered tag (.int (decodeBits B)) (some B.length)) := by
  rw [exec_eq_finish, answerOf, answerBvDecode, if_pos h]; rfl

/-- Settles O23: the value is `DECODE` of the vector, whose range is what fits its length. -/
theorem decodeAnswersTheSignedValue : Obligations.DecodeAnswersTheSignedValue := by
  unfold Obligations.DecodeAnswersTheSignedValue
  intro s tag B hne
  have hwf : B.wf = true := (wf_iff_length_pos B).2 (List.length_pos_of_ne_nil hne)
  obtain ⟨hlo, hhi⟩ := decodeBits_range hwf
  exact ⟨unsignedValue B, decodeBits B, (sum_bitAt_eq_unsignedValue B).symm,
    decodeBits_eq_of_top_bit B, hlo, hhi, exec_bvDecode_of_wf s tag hwf⟩

end Sys2Proof.Machine
end

section
/-! PROOFS. The family `42_booth_encoder.md`: the digit tables (42 R103, R105) and
`BOOTH.DIGITS` (42 R102). -/

namespace Sys2Proof.Machine

/-- Settles O27: the digit of a group inside the vector is its formula, and the eight rows are the formula
at the eight values of the three bits. -/
theorem radix4DigitTable : Obligations.Radix4DigitTable := by
  unfold Obligations.Radix4DigitTable
  intro B i hi
  have hin : groupSize .r4 * i + groupSize .r4 ≤ B.length := by simp only [groupSize]; omega
  rw [boothDigit_ok hin]
  unfold digitFormula
  rcases bitAt_zero_or_one B (2 * i + 1), bitAt_zero_or_one B (2 * i), overlapBit_zero_or_one .r4 B i
    with ⟨h1 | h1, h0 | h0, hov | hov⟩
  all_goals
    rw [h1, h0, hov]
    rfl

/-- Settles O28: as for radix-4, with sixteen rows for the four bits. -/
theorem radix8DigitTable : Obligations.Radix8DigitTable := by
  unfold Obligations.Radix8DigitTable
  intro B i hi
  have hin : groupSize .r8 * i + groupSize .r8 ≤ B.length := by simp only [groupSize]; omega
  rw [boothDigit_ok hin]
  unfold digitFormula
  rcases bitAt_zero_or_one B (3 * i + 2), bitAt_zero_or_one B (3 * i + 1), bitAt_zero_or_one B (3 * i),
    overlapBit_zero_or_one .r8 B i with ⟨h2 | h2, h1 | h1, h0 | h0, hov | hov⟩
  all_goals
    rw [h2, h1, h0, hov]
    rfl

/-- The digit list of `BOOTH_DIGITS` is the response of `BOOTH.DIGITS`; it has no width (30 R67). -/
theorem exec_boothDigits_of_ok {s : State} {B : Bits} {ds : List Int} (tag : Tag) (hwf : B.wf = true)
    (h : boothDigits s.cfg.radix B = .ok ds) :
    exec (.boothDigits tag B) s = .next (s.answered tag (.ints ds) none) := by
  rw [exec_eq_finish, answerOf, answerBoothDigits, if_pos hwf, h]; rfl

/-- An error of `BOOTH_DIGITS` is the response of `BOOTH.DIGITS` (60 R197, R200). -/
theorem exec_boothDigits_of_error {s : State} {B : Bits} {e : Info} (tag : Tag) (hwf : B.wf = true)
    (h : boothDigits s.cfg.radix B = .error e) :
    exec (.boothDigits tag B) s = .next (raise tag e s) := by
  rw [exec_eq_finish, answerOf, answerBoothDigits, if_pos hwf, h]; rfl

/-- Place `i` of the digit list holds the digit of group `i` (42 R102). -/
theorem eq_digitFormula_of_getElem? {r : Radix} {B : Bits} {n i : Nat} {d : Int}
    (h : ((List.range n).map (digitFormula r B))[i]? = some d) : d = digitFormula r B i := by
  obtain ⟨-, rfl⟩ := List.getElem?_eq_some_iff.1 h
  rw [List.getElem_map, List.getElem_range]

/-- Settles O29: the digits of a vector of whole groups are `boothDigits_of_dvd`, any other length raises
`ERR_BOOTH_INDEX` by `boothDigits_of_not_dvd`. -/
theorem boothDigitsFollowThePseudocode : Obligations.BoothDigitsFollowThePseudocode := by
  unfold Obligations.BoothDigitsFollowThePseudocode
  intro s tag B hne
  have hwf : B.wf = true := (wf_iff_length_pos B).2 (List.length_pos_of_ne_nil hne)
  refine ⟨fun hdvd => ?_,
    fun hdvd => exec_boothDigits_of_error tag hwf (boothDigits_of_not_dvd hdvd)⟩
  refine ⟨_, by simp, fun i d hd => ?_, exec_boothDigits_of_ok tag hwf (boothDigits_of_dvd hdvd)⟩
  rw [eq_digitFormula_of_getElem? hd]
  exact ⟨digitFormula_inRange _ B i, fun hr => by rw [hr]; rfl, fun hr => by rw [hr]; rfl⟩

end Sys2Proof.Machine
end

section
/-! PROOFS. The family `43_partial_product.md`: the multiple of each digit (43 R120) and `PP.GEN` (43 R122). -/

namespace Sys2Proof.Machine

/-- The multiple of each digit, as 43 R120 forms it: by shifts of `x`, and for the digits ±3 by `x + 2x`. -/
theorem multiple_forms (x : Int) :
    multiple x 0 = 0 ∧ multiple x 1 = x ∧ multiple x (-1) = -x ∧
      multiple x 2 = x * 2 ^ 1 ∧ multiple x (-2) = -(x * 2 ^ 1) ∧
      multiple x 3 = x + 2 * x ∧ multiple x (-3) = -(x + 2 * x) ∧
      multiple x 4 = x * 2 ^ 2 ∧ multiple x (-4) = -(x * 2 ^ 2) := by
  unfold multiple
  refine ⟨?_, ?_, ?_, ?_, ?_, ?_, ?_, ?_, ?_⟩ <;> ring

/-- Settles O32: the digits ±3 and ±4 are the ones that only the range of radix-8 holds. -/
theorem digitsSelectMultiples : Obligations.DigitsSelectMultiples := by
  unfold Obligations.DigitsSelectMultiples
  exact ⟨multiple_forms, fun _ _ _ _ _ => ppGen_digit, by decide⟩

/-- Past the digit check and the index check, `PP_GEN` is `ENCODE` of the aligned multiple (43 R122). -/
theorem ppGen_eq_encodeBits {r : Radix} {x d i rw : Int} (hd : digitInRange r d = true) (hi : 0 ≤ i) :
    ppGen r x d i rw = encodeBits r (d * x * 2 ^ (groupSize r * i.toNat)) rw := by
  obtain ⟨k, rfl⟩ := Int.eq_ofNat_of_zero_le hi
  exact ppGen_encode hd

/-- An encoded vector holds the remainder of its value, in the rounded width (41 R85). -/
theorem encodeBits_remainder {r : Radix} {v w : Int} {B : Bits} (h : encodeBits r v w = .ok B) :
    (B.length : Int) = roundUp w (groupSize r) ∧ (unsignedValue B : Int) = v % 2 ^ B.length := by
  obtain ⟨-, hfits, rfl⟩ := encodeBits_ok_iff.1 h
  obtain ⟨n, hn⟩ : ∃ n : Nat, roundUp w (groupSize r) = n :=
    Int.eq_ofNat_of_zero_le (by have := fits_pos hfits; omega)
  have hnonneg : 0 ≤ v % 2 ^ n := Int.emod_nonneg v (by positivity)
  rw [hn, Int.toNat_natCast, lowBits_length, unsignedValue_lowBits]
  refine ⟨rfl, ?_⟩
  push_cast
  rw [Int.toNat_of_nonneg hnonneg, Int.emod_emod]

/-- An error of `PP_GEN` is the response of `PP.GEN` (60 R197). -/
theorem exec_ppGen_of_error {s : State} {x d i rw : Int} {e : Info} (tag : Tag)
    (h : ppGen s.cfg.radix x d i rw = .error e) :
    exec (.ppGen tag x d i rw) s = .next (raise tag e s) := by
  rw [exec_eq_finish, answerOf, answerPpGen, h]; rfl

/-- The vector of `PP_GEN` is the response of `PP.GEN`; it has no width (30 R67). -/
theorem exec_ppGen_of_ok {s : State} {x d i rw : Int} {B : Bits} (tag : Tag)
    (h : ppGen s.cfg.radix x d i rw = .ok B) :
    exec (.ppGen tag x d i rw) s = .next (s.answered tag (.bits B) none) := by
  rw [exec_eq_finish, answerOf, answerPpGen, h]; rfl

/-- Settles O33: the digit check, the index check, and then the three ends of `ENCODE` on the aligned
multiple, each carried to the response. -/
theorem partialProductFollowsThePseudocode : Obligations.PartialProductFollowsThePseudocode := by
  unfold Obligations.PartialProductFollowsThePseudocode
  intro s tag x d i rw
  refine ⟨fun hd => ?_, fun hd hi => ?_, fun hd hi hrw => ?_, fun hd hi hrw hfits => ?_,
    fun hd hi hrw hfits => ?_⟩
  · exact exec_ppGen_of_error tag (ppGen_digit hd)
  · exact exec_ppGen_of_error tag (ppGen_index hd hi)
  · exact exec_ppGen_of_error tag ((ppGen_eq_encodeBits hd hi).trans (encodeBits_of_width_lt_one hrw))
  · exact exec_ppGen_of_error tag ((ppGen_eq_encodeBits hd hi).trans (encodeBits_of_not_fits hrw hfits))
  · obtain ⟨B, hB, -⟩ := encodeBits_pattern hrw hfits
    obtain ⟨hlength, hvalue⟩ := encodeBits_remainder hB
    exact ⟨B, hlength, hvalue, exec_ppGen_of_ok tag ((ppGen_eq_encodeBits hd hi).trans hB)⟩

end Sys2Proof.Machine
end

section
/-! PROOFS. The family `44_cpa_tree.md`: the column step (44 R141), the engine (44 R142), `CPA.FULL` (44 R143) and
`CPA.TRUNC` (44 R144). -/

namespace Sys2Proof.Machine

/-- A bit is 1 at a place exactly when the vector covers the place and holds a 1 there (44 R140). -/
theorem getElem?_beq_some_true (p : Bits) (c : Nat) :
    (p[c]? == some true) = (decide (c < p.length) && p.getD c false) := by
  by_cases hc : c < p.length <;> simp [hc]

theorem columnCount_eq_length_filter (pps : List Bits) (c : Nat) :
    columnCount pps c = (pps.filter (fun p => decide (c < p.length) && p.getD c false)).length := by
  simp only [columnCount, List.countP_eq_length_filter, getElem?_beq_some_true]

/-- Settles O34: the model's count of a column is the statement's `k`, and the rest is the step as written. -/
theorem columnStepFollowsThePseudocode : Obligations.ColumnStepFollowsThePseudocode := by
  unfold Obligations.ColumnStepFollowsThePseudocode
  intro pps s k cs S hk hcs
  rw [← columnCount_eq_length_filter] at hk
  subst hk hcs
  rfl

/-- The state a sum starts in, with its phase as 44 R142 writes it. -/
theorem sumStart_eq (s : Nat) :
    sumStart s = { c := 0, carry := 0, res := [], phase := if s > 0 then .LOW else .HIGH } := by
  cases s <;> rfl

/-- `k` column steps from the start lead to the state before column `k`. -/
theorem iterate_sumStep_sumStart (pps : List Bits) (s k : Nat) :
    (sumStep pps s)^[k] (sumStart s) = sumAt pps s k := by
  induction k with
  | zero => exact (sumAt_zero pps s).symm
  | succ k ih => rw [Function.iterate_succ_apply', ih, sumStep_sumAt]

/-- The engine emits one bit for each column from the split up (44 R142). -/
theorem length_cpa_res (pps : List Bits) (s t : Nat) : (cpa pps s t).res.length = t - s := by
  rw [cpa_eq]
  exact lowBits_length _ _

/-- Settles O35: the engine and the iterated column step both end before column `t`. -/
theorem engineTakesExactlyTheColumnSteps : Obligations.EngineTakesExactlyTheColumnSteps := by
  unfold Obligations.EngineTakesExactlyTheColumnSteps
  intro pps s t _
  refine ⟨?_, ?_, length_cpa_res pps s t⟩
  · rw [← sumStart_eq, iterate_sumStep_sumStart, cpa_eq]
  · rw [cpa_eq]; rfl

/-- Partial products that can be written pass the check of the model (00 R10). -/
theorem all_wf_of_ne_nil {pps : List Bits} (h : ∀ p ∈ pps, p ≠ []) : pps.all Bits.wf = true :=
  List.all_eq_true.2 fun p hp => (wf_iff_length_pos p).2 (List.length_pos_of_ne_nil (h p hp))

/-- `w` emitted bits decode to a `w`-bit value (44 R143, R144). -/
theorem decodeBits_cpa_range {pps : List Bits} {s t w : Nat} (hw : 1 ≤ w) (ht : t - s = w) :
    -(2 ^ (w - 1)) ≤ decodeBits (cpa pps s t).res ∧
      decodeBits (cpa pps s t).res ≤ 2 ^ (w - 1) - 1 := by
  have hlength : (cpa pps s t).res.length = w := (length_cpa_res pps s t).trans ht
  have hwf : (cpa pps s t).res.wf = true := (wf_iff_length_pos _).2 (by omega)
  simpa only [hlength] using decodeBits_range hwf

theorem exec_cpaFull_of_wf (s : State) (tag : Tag) {pps : List Bits} (t : Int)
    (hwf : pps.all Bits.wf = true) :
    exec (.cpaFull tag pps t) s =
      finish tag (orAnswer (cpaFull pps t) fun v => .ok (.int v) (some t.toNat)) s := by
  rw [exec_eq_finish, answerOf, answerCpaFull, if_pos hwf]; rfl

theorem exec_cpaTrunc_of_wf (s : State) (tag : Tag) {pps : List Bits} (n : Int)
    (hwf : pps.all Bits.wf = true) :
    exec (.cpaTrunc tag pps n) s =
      finish tag (orAnswer (cpaTrunc pps n) fun v => .ok (.int v) (some n.toNat)) s := by
  rw [exec_eq_finish, answerOf, answerCpaTrunc, if_pos hwf]; rfl

/-- Settles O37: `t` columns from 0 up emit `t` bits. -/
theorem cpaFullFollowsThePseudocode : Obligations.CpaFullFollowsThePseudocode := by
  unfold Obligations.CpaFullFollowsThePseudocode
  intro s tag pps t hpps
  rw [exec_cpaFull_of_wf s tag t (all_wf_of_ne_nil hpps), cpaFull]
  refine ⟨fun ht => ?_, fun ht => ?_⟩
  · rw [if_pos ht]; rfl
  · obtain ⟨hlo, hhi⟩ := decodeBits_cpa_range (pps := pps) (s := 0) (t := t.toNat)
      (w := t.toNat) (by omega) (Nat.sub_zero _)
    refine ⟨_, rfl, hlo, hhi, ?_⟩
    rw [if_neg (not_lt.2 ht)]; rfl

/-- Settles O38: `2n` columns split at `n` emit `n` bits. -/
theorem cpaTruncFollowsThePseudocode : Obligations.CpaTruncFollowsThePseudocode := by
  unfold Obligations.CpaTruncFollowsThePseudocode
  intro s tag pps n hpps
  rw [exec_cpaTrunc_of_wf s tag n (all_wf_of_ne_nil hpps), cpaTrunc]
  refine ⟨fun hn => ?_, fun hn => ?_⟩
  · rw [if_pos hn]; rfl
  · obtain ⟨hlo, hhi⟩ := decodeBits_cpa_range (pps := pps) (s := n.toNat) (t := 2 * n.toNat)
      (w := n.toNat) (by omega) (by omega)
    refine ⟨_, rfl, hlo, hhi, ?_⟩
    rw [if_neg (not_lt.2 hn)]; rfl

end Sys2Proof.Machine
end

section
/-! PROOFS. The family `45_multiplier.md`: the working bit length (45 R171) and the checks of `MUL.TRUNC` (45 R175, R176). -/

namespace Sys2Proof.Machine

/-- The working bit length is the rounded width itself: rounding up a positive length leaves nothing negative
for the cast to a natural number to cut off (45 R171). -/
theorem workingLength_eq_roundUp (r : Radix) (x y : Int) :
    (workingLength r x y : Int) =
      roundUp ((max (bitlen x) (bitlen y) : Nat) + 1 : Int) (groupSize r) := by
  have hle := le_roundUp ((max (bitlen x) (bitlen y) : Nat) + 1 : Int) r
  exact Int.toNat_of_nonneg (by omega)

/-- The working bit length leaves room for a sign above the longer operand's magnitude (45 R171). -/
theorem max_bitlen_lt_workingLength (r : Radix) (x y : Int) :
    max (bitlen x) (bitlen y) < workingLength r x y := by
  have hle := le_roundUp ((max (bitlen x) (bitlen y) : Nat) + 1 : Int) r
  rw [← workingLength_eq_roundUp] at hle
  omega

theorem groupSize_dvd_workingLength (r : Radix) (x y : Int) : groupSize r ∣ workingLength r x y := by
  obtain ⟨hdvd, -⟩ := roundUp_spec ((max (bitlen x) (bitlen y) : Nat) + 1 : Int) r
  rw [← workingLength_eq_roundUp] at hdvd
  exact Int.natCast_dvd_natCast.1 hdvd

theorem fits_of_bitlen_lt {v : Int} {w : Nat} (h : bitlen v < w) : fits v w = true :=
  fits_mono h (fits_bitlen_add_one v)

/-- Settles O42: the length is above both operands' bit lengths, and a positive multiple of `g` is at least
`g`, which is at least 2. -/
theorem workingLengthHoldsBothOperands : Obligations.WorkingLengthHoldsBothOperands := by
  unfold Obligations.WorkingLengthHoldsBothOperands
  intro r x y
  have hlt := max_bitlen_lt_workingLength r x y
  have hdvd := groupSize_dvd_workingLength r x y
  have hg : groupSize r ≤ workingLength r x y := Nat.le_of_dvd (by omega) hdvd
  exact ⟨workingLength_eq_roundUp r x y, hdvd, hg, (two_le_groupSize r).trans hg,
    fits_of_bitlen_lt ((le_max_left _ _).trans_lt hlt),
    fits_of_bitlen_lt ((le_max_right _ _).trans_lt hlt)⟩

/-- `x` is checked first: its error is raised whatever `y` is (45 R176). -/
theorem requireBothFit_of_not_fits_left {x y w : Int} (hx : fits x w = false) :
    requireBothFit x y w = .error (.width .X x w) := by
  simp [requireBothFit, requireFit_eq, hx, andThen]

theorem requireBothFit_of_not_fits_right {x y w : Int} (hx : fits x w = true) (hy : fits y w = false) :
    requireBothFit x y w = .error (.width .Y y w) := by
  simp [requireBothFit, requireFit_eq, hx, hy, andThen]

/-- Past the operand ports, the split is judged before either operand is held against it (45 R175). -/
theorem truncChecks_of_split_lt_one {cfg : Config} {x y n : Int} (hports : requirePorts cfg x y = .ok ())
    (hn : n < 1) : truncChecks cfg x y n = .error (.arg .n n) := by
  simp [truncChecks, hports, requireSplit, hn, andThen]

/-- Past the operand ports and the split, what is left to check is that both operands fit `n` bits
(45 R176). -/
theorem truncChecks_eq_requireBothFit {cfg : Config} {x y n : Int} (hports : requirePorts cfg x y = .ok ())
    (hn : 1 ≤ n) : truncChecks cfg x y n = requireBothFit x y n := by
  simp [truncChecks, hports, requireSplit, not_lt.2 hn, andThen]

/-- An error of the checks is the response of `MUL.TRUNC`: nothing is multiplied (60 R197, R199). -/
theorem exec_mulTrunc_of_error {s : State} {x y n : Int} {e : Info} (tag : Tag)
    (h : truncChecks s.cfg x y n = .error e) :
    exec (.mulTrunc tag x y n) s = .next (raise tag e s) := by
  rw [exec_eq_finish, answerOf, answerMulTrunc, h]; rfl

/-- Settles O47: one clause for each end of the checks past the ports, carried to the response. -/
theorem mulTruncChecksItsRequestInOrder : Obligations.MulTruncChecksItsRequestInOrder := by
  unfold Obligations.MulTruncChecksItsRequestInOrder
  intro s tag x y n hadmitted
  have hports : requirePorts s.cfg x y = .ok () := requirePorts_ok_iff.2 hadmitted
  refine ⟨fun hn => ?_, fun hn hx => ?_, fun hn hx hy => ?_⟩
  · exact exec_mulTrunc_of_error tag (truncChecks_of_split_lt_one hports hn)
  · exact exec_mulTrunc_of_error tag
      ((truncChecks_eq_requireBothFit hports hn).trans (requireBothFit_of_not_fits_left hx))
  · exact exec_mulTrunc_of_error tag
      ((truncChecks_eq_requireBothFit hports hn).trans (requireBothFit_of_not_fits_right hx hy))

end Sys2Proof.Machine
end

section
/-! PROOFS. The family `60_exceptions.md`: the status codes (60 R196). -/

namespace Sys2Proof.Machine

/-- The assigned codes end at 5: what lies above is reserved (60 R196). -/
theorem Status.code_le_five (st : Status) : st.code ≤ 5#3 := by
  cases st <;> decide

theorem Status.code_ne_of_five_lt {c : BitVec 3} (hc : 5#3 < c) (st : Status) : st.code ≠ c := by
  rintro rfl
  exact BitVec.not_le.2 hc st.code_le_five

/-- Settles O18: each row of the table is an equation of `Status.code`, and the reserved codes lie above the
greatest assigned one. -/
theorem statusCodesAreAsAssigned : Obligations.StatusCodesAreAsAssigned := by
  unfold Obligations.StatusCodesAreAsAssigned
  refine ⟨rfl, rfl, rfl, rfl, rfl, rfl, fun st => ⟨?_, ?_⟩⟩
  · exact st.code_ne_of_five_lt (by decide)
  · exact st.code_ne_of_five_lt (by decide)

end Sys2Proof.Machine
end

section
/-! PROOFS. The family `other`, requests: decoding and encoding (30 R60 to R65), and what a step makes of a request that is
presented or launched. -/

namespace Sys2Proof

/-- An instruction that can be written decodes from its own request wherever its code is offered. -/
theorem decode_encode {iface : Interface} {i : Instr} (hwf : i.wf = true)
    (hoffers : iface.offers i.fn = true) : decode iface (encode i) = .ok i :=
  decode_ok_iff.2 ⟨hoffers, hwf, rfl, rfl, rfl⟩

/-- At the external interface a sub-block function is rejected for its code, any other is decoded (30 R63). -/
theorem decode_external_encode {i : Instr} (hwf : i.wf = true) :
    decode .external (encode i) =
      if i.fn.getLsbD 3 then .error (.illegalOp i.fn) else .ok i := by
  split
  · next h => exact decode_of_no_function (.inr (offers_eq_false_iff.2 ⟨rfl, h⟩))
  · next h => exact decode_encode hwf (by simpa [Interface.offers, domainBit] using h)

/-- A request that decodes is the request of its instruction. -/
theorem encode_of_decode {iface : Interface} {r : Request} {i : Instr} (h : decode iface r = .ok i) :
    encode i = r := by
  obtain ⟨-, -, hfn, htag, hfields⟩ := decode_ok_iff.1 h
  rw [encode, hfn, htag, hfields]

theorem wf_of_decode {iface : Interface} {r : Request} {i : Instr} (h : decode iface r = .ok i) :
    i.wf = true := (decode_ok_iff.1 h).2.1

/-- Settles O3: encoding then decoding is `decode_encode`, decoding then encoding `encode_of_decode`. -/
theorem decodeAndEncodeAreInverse : Obligations.DecodeAndEncodeAreInverse := by
  unfold Obligations.DecodeAndEncodeAreInverse
  exact ⟨fun i hwf => ⟨decode_encode hwf rfl, decode_external_encode hwf⟩,
    fun _ _ _ h => ⟨encode_of_decode h, wf_of_decode h⟩⟩

/-- Settles O2: each of the sixteen words is decoded by evaluation. -/
theorem codeWordsDecode : Obligations.CodeWordsDecode := by
  unfold Obligations.CodeWordsDecode
  decide

/-- The format of the fields is judged before their bit vectors. -/
theorem decode_of_format_mismatch {iface : Interface} {r : Request} {op : Opcode}
    (hop : opcodeOf r.fn = some op) (hoffers : iface.offers r.fn = true)
    (hformat : op.format ≠ r.fields.format) :
    decode iface r = .error (.formatMismatch r.fn r.fields.format) := by
  simp [decode, hop, hoffers, build_eq_none_iff.2 hformat]

theorem decode_of_empty_bit_vector {iface : Interface} {r : Request} {op : Opcode}
    (hop : opcodeOf r.fn = some op) (hoffers : iface.offers r.fn = true)
    (hformat : op.format = r.fields.format) (hwf : r.fields.wf = false) :
    decode iface r = .error (.emptyBitVector r.fn) := by
  cases hb : op.build r.tag r.fields with
  | none => exact absurd hformat (build_eq_none_iff.1 hb)
  | some i =>
    have hi : i.wf = false := by rw [← fields_wf, (build_eq_some_iff.1 hb).2.2, hwf]
    simp [decode, hop, hoffers, hb, hi]

end Sys2Proof

namespace Sys2Proof.Machine

variable {iface : Interface} {r : Request} {run : Instr → Host.Outcome State Fault Refusal}
  {reject : FnCode → Host.Outcome State Fault Refusal}

theorem accept_of_decode {i : Instr} (h : decode iface r = .ok i) : accept iface r run reject = run i := by
  unfold accept; rw [h]

/-- What the decoder refuses by another reason than its code stops the block (log 9). -/
theorem accept_of_malformed {why : Reject} (h : decode iface r = .error why)
    (hwhy : ∀ fn, why ≠ .illegalOp fn) :
    accept iface r run reject = .refused (.malformedRequest why) := by
  unfold accept
  rw [h]
  cases why with
  | illegalOp fn => exact absurd rfl (hwhy fn)
  | formatMismatch fn found => rfl
  | emptyBitVector fn => rfl

/-- Settles O7: serving a request that decodes is running its instruction. -/
theorem stepRunsTheDecodedRequest : Obligations.StepRunsTheDecodedRequest := by
  unfold Obligations.StepRunsTheDecodedRequest
  intro s iface r rest i hin hdecode
  exact (step_of_input hin).trans (accept_of_decode hdecode)

/-- Settles O8: the two ways a request of an offered code fails to decode. -/
theorem malformedRequestIsRefused : Obligations.MalformedRequestIsRefused := by
  unfold Obligations.MalformedRequestIsRefused
  intro s iface r rest op hin hop hoffers
  rw [step_of_input hin]
  exact ⟨fun hformat => accept_of_malformed (decode_of_format_mismatch hop hoffers hformat) (by simp),
    fun hformat hwf =>
      accept_of_malformed (decode_of_empty_bit_vector hop hoffers hformat hwf) (by simp)⟩

/-- Settles O49: the operation that starts has no transient value defined. -/
theorem launchedRequestGetsItsOwnOperation : Obligations.LaunchedRequestGetsItsOwnOperation := by
  unfold Obligations.LaunchedRequestGetsItsOwnOperation
  intro s iface r rest i hin hdecode
  exact (step_of_input hin).trans (accept_of_decode hdecode)

/-- A place that holds a request without a function is answered with the record of its code. -/
theorem answerAt_of_getElem? {s : State} {k : Nat} {x : Rejected} (h : s.rejected[k]? = some x) :
    answerAt k s = .next (raise x.tag (.illegalOp x.fn) { s with rejected := s.rejected.eraseIdx k }) := by
  unfold answerAt; rw [h]

/-- Settles O57: a code without a function waits when launched, and is answered when its place is. -/
theorem launchedCodeWithoutFunctionWaitsForItsAnswer :
    Obligations.LaunchedCodeWithoutFunctionWaitsForItsAnswer := by
  unfold Obligations.LaunchedCodeWithoutFunctionWaitsForItsAnswer
  intro s iface r rest hcode
  have hno : opcodeOf r.fn = none ∨ iface.offers r.fn = false :=
    hcode.imp (opcodeOf_eq_none_iff_reserved r.fn).2 offers_eq_false_iff.2
  refine ⟨fun hin => ?_, fun k hin hk => ?_⟩
  · exact (step_of_input hin).trans (accept_of_no_function hno)
  · exact (step_of_input hin).trans (answerAt_of_getElem? (s := { s with inputs := rest }) hk)

/-! ## Steps without a request: going on, idling, reset -/

/-- Settles O58: `goOn` takes what waits first, then the oldest operation. -/
theorem blockGoesOnWithoutInputs : Obligations.BlockGoesOnWithoutInputs := by
  unfold Obligations.BlockGoesOnWithoutInputs
  intro s hin
  refine ⟨fun x xs hrejected => (step_of_no_input hin).trans (goOn_of_rejected hrejected),
    fun hrejected => ?_⟩
  have hsame : { s with inputs := [] } = s := by rw [← hin]
  rw [step_of_no_input hin, goOn_of_no_rejected hrejected, step_of_input (rest := []) rfl]
  exact congrArg (advanceAt 0) hsame.symm

/-- Settles O9: with nothing waiting the block would advance its oldest operation, and it has none. -/
theorem idleBlockPerformsNothing : Obligations.IdleBlockPerformsNothing := by
  unfold Obligations.IdleBlockPerformsNothing
  intro s hin hflight hrejected
  rw [step_of_no_input hin, goOn_of_no_rejected hrejected, advanceAt_of_idle hflight]

/-- Settles O11: what `assertReset` leaves, written out field by field. -/
theorem resetAbandonsOperationsInFlight : Obligations.ResetAbandonsOperationsInFlight := by
  unfold Obligations.ResetAbandonsOperationsInFlight
  intro s rest hin
  exact step_of_input hin

/-- An idle block has nothing of which the invariant says anything but its configuration. -/
theorem State.idle_inv {cfg : Config} (h : cfg.wf = true) : (State.idle cfg).Inv :=
  ⟨h, fun _ ho => absurd ho List.not_mem_nil, fun _ hr => absurd hr List.not_mem_nil⟩

/-- Settles O10: the reset block is the idle block of the standard configuration. -/
theorem resetIsIdleAndMeetsTheInvariant : Obligations.ResetIsIdleAndMeetsTheInvariant := by
  unfold Obligations.ResetIsIdleAndMeetsTheInvariant
  exact ⟨rfl, rfl, rfl, rfl, rfl, State.idle_inv rfl, fun _ => State.idle_inv⟩

theorem radixOf_eq_some_iff {n : Nat} {r : Radix} :
    radixOf n = some r ↔ n = 4 ∧ r = .r4 ∨ n = 8 ∧ r = .r8 := by
  unfold radixOf
  split
  · next h => subst h; simp [eq_comm]
  · split
    · next h => subst h; simp [eq_comm]
    · next h4 h8 => simp [h4, h8]

/-- Everything that can be built (00 R6, R8; decision D14). -/
theorem construct_eq_some_iff {n : Nat} {ob : Option Nat} {s : State} :
    construct n ob = some s ↔
      ∃ r, radixOf n = some r ∧ ob ≠ some 0 ∧ s = State.idle { radix := r, operandBits := ob } := by
  unfold construct
  cases radixOf n with
  | none => simp
  | some r => by_cases hob : ob = some 0 <;> simp [hob, eq_comm]

/-- Settles O12: a block is built of each radix that a number names, with the operand width asked for. -/
theorem onlyLegalBlocksAreBuilt : Obligations.OnlyLegalBlocksAreBuilt := by
  unfold Obligations.OnlyLegalBlocksAreBuilt
  refine ⟨fun n ob => ?_, fun n ob s hs => ?_⟩
  · rw [Option.ne_none_iff_exists']
    constructor
    · rintro ⟨s, hs⟩
      obtain ⟨r, hr, hob, -⟩ := construct_eq_some_iff.1 hs
      exact ⟨(radixOf_eq_some_iff.1 hr).imp And.left And.left, hob⟩
    · rintro ⟨rfl | rfl, hob⟩
      · exact ⟨_, construct_eq_some_iff.2 ⟨.r4, rfl, hob, rfl⟩⟩
      · exact ⟨_, construct_eq_some_iff.2 ⟨.r8, rfl, hob, rfl⟩⟩
  · obtain ⟨r, hr, hob, rfl⟩ := construct_eq_some_iff.1 hs
    have hwf : Config.wf { radix := r, operandBits := ob } = true := bne_iff_ne.2 hob
    rcases radixOf_eq_some_iff.1 hr with ⟨rfl, rfl⟩ | ⟨rfl, rfl⟩
    · exact ⟨fun _ => ⟨rfl, rfl⟩, by simp, rfl, rfl, hwf⟩
    · exact ⟨by simp, fun _ => ⟨rfl, rfl⟩, rfl, rfl, hwf⟩

end Sys2Proof.Machine
end

section
/-! PROOFS. The family `other`, arithmetic: the codec laws (41 R85 to R89), the recoding identity (42 R106), the laws of the
column engine (10 R29, 44 R146, R147). -/

namespace Sys2Proof.Machine

/-! ## The codec -/

/-- Settles O22: the vector holds the low bits of the pattern. -/
theorem encodedVectorHoldsTheRemainder : Obligations.EncodedVectorHoldsTheRemainder := by
  unfold Obligations.EncodedVectorHoldsTheRemainder
  exact fun _ _ _ _ => encodeBits_remainder

theorem length_encodeBits {r : Radix} {v w : Int} {B : Bits} (h : encodeBits r v w = .ok B) :
    (B.length : Int) = roundUp w (groupSize r) := (encodeBits_remainder h).1

theorem fits_length_encodeBits {r : Radix} {v w : Int} {B : Bits} (h : encodeBits r v w = .ok B) :
    fits v B.length = true := by
  rw [length_encodeBits h]
  exact (encodeBits_ok_iff.1 h).2.1

theorem wf_encodeBits {r : Radix} {v w : Int} {B : Bits} (h : encodeBits r v w = .ok B) :
    B.wf = true := by
  have := fits_pos (fits_length_encodeBits h)
  exact (wf_iff_length_pos B).2 (by omega)

/-- Decoding what `ENCODE` accepts gives the value: it is its own balanced remainder (41 R87). -/
theorem decodeBits_encodeBits {r : Radix} {v w : Int} {B : Bits} (h : encodeBits r v w = .ok B) :
    decodeBits B = v := by
  have hmod : ((2 ^ B.length : Nat) : Int) = 2 ^ B.length := by push_cast; rfl
  calc decodeBits B = Int.bmod (unsignedValue B) (2 ^ B.length) := decodeBits_eq_bmod B (wf_encodeBits h)
    _ = Int.bmod (v % (2 ^ B.length : Nat)) (2 ^ B.length) := by rw [(encodeBits_remainder h).2, hmod]
    _ = Int.bmod v (2 ^ B.length) := Int.emod_bmod _ _
    _ = v := bmod_of_fits (fits_length_encodeBits h)

/-- Settles O24: the vector's length, to which `ENCODE` rounds, holds the value. -/
theorem decodeAfterEncodeIsTheValue : Obligations.DecodeAfterEncodeIsTheValue := by
  unfold Obligations.DecodeAfterEncodeIsTheValue
  exact fun _ _ _ _ => decodeBits_encodeBits

/-- The decoded value and the unsigned value have the same remainder: they differ by `2^len` at most
once (41 R86). -/
theorem decodeBits_emod (B : Bits) : decodeBits B % 2 ^ B.length = unsignedValue B := by
  have hlt : (unsignedValue B : Int) < 2 ^ B.length := by exact_mod_cast unsignedValue_lt B
  unfold decodeBits
  split
  · rw [Int.sub_emod_right, Int.emod_eq_of_lt (by omega) hlt]
  · exact Int.emod_eq_of_lt (by omega) hlt

/-- A vector is the low bits of its decoded value. -/
theorem lowBits_decodeBits (B : Bits) : lowBits B.length (decodeBits B % 2 ^ B.length).toNat = B := by
  rw [decodeBits_emod, Int.toNat_natCast, lowBits_unsignedValue]

/-- A bit put above a vector becomes its sign bit, with negative weight. -/
theorem decodeBits_concat (B : Bits) (b : Bool) :
    decodeBits (B ++ [b]) = unsignedValue B - b.toNat * 2 ^ B.length := by
  unfold decodeBits
  rw [List.getLast?_concat, unsignedValue_append, List.length_append]
  cases b
  · simp
  · simp [pow_succ]; ring

/-- A second copy of the sign bit takes over the negative weight and halves it back (41 R89). -/
theorem decodeBits_concat_sign {B : Bits} {b : Bool} (h : B.getLast? = some b) :
    decodeBits (B ++ [b]) = decodeBits B := by
  rw [decodeBits_concat, decodeBits, h]
  cases b <;> simp

theorem decodeBits_append_replicate {B : Bits} {b : Bool} (h : B.getLast? = some b) (k : Nat) :
    decodeBits (B ++ List.replicate k b) = decodeBits B := by
  induction k with
  | zero => simp
  | succ k ih =>
    have hlast : (B ++ List.replicate k b).getLast? = some b := by
      rw [List.getLast?_append, List.getLast?_replicate, h]
      split <;> rfl
    rw [List.replicate_succ', ← List.append_assoc, decodeBits_concat_sign hlast, ih]

theorem length_sext {N : Nat} {B : Bits} (h : B.length ≤ N) : (sext N B).length = N := by
  rw [sext, List.length_append, List.length_replicate]
  omega

/-- Sign extension keeps the value (41 R89). -/
theorem decodeBits_sext (N : Nat) {B : Bits} (h : B ≠ []) : decodeBits (sext N B) = decodeBits B := by
  have hlast : B.getLast? = some (B.getLast? == some true) := by
    rw [List.getLast?_eq_some_getLast h]
    cases B.getLast h <;> rfl
  exact decodeBits_append_replicate hlast _

/-- Settles O26: each copy of the sign bit keeps the value. -/
theorem signExtensionKeepsTheValue : Obligations.SignExtensionKeepsTheValue := by
  unfold Obligations.SignExtensionKeepsTheValue
  exact fun N B hne hN => ⟨length_sext hN, decodeBits_sext N hne⟩

theorem sext_length_self (B : Bits) : sext B.length B = B := by simp [sext]

/-- Encoding a decoded value at the vector's own length gives the vector, extended to the rounded length: the
extension has the same value, and a vector is the low bits of its value (41 R88). -/
theorem encodeBits_decodeBits (r : Radix) {B : Bits} (hne : B ≠ []) :
    encodeBits r (decodeBits B) B.length = .ok (sext (roundUp B.length (groupSize r)).toNat B) := by
  have hpos : 0 < B.length := List.length_pos_of_ne_nil hne
  have hle := le_roundUp B.length r
  obtain ⟨N, hN⟩ : ∃ N : Nat, roundUp B.length (groupSize r) = N :=
    Int.eq_ofNat_of_zero_le (by omega)
  have hfits : fits (decodeBits B) N = true :=
    fits_mono (by omega) (fits_decodeBits B ((wf_iff_length_pos B).2 hpos))
  have hext := lowBits_decodeBits (sext N B)
  rw [length_sext (by omega), decodeBits_sext N hne] at hext
  rw [encodeBits_ok_iff, hN, Int.toNat_natCast]
  exact ⟨by omega, hfits, hext.symm⟩

/-- Settles O25: at a length of whole groups the extension adds nothing. -/
theorem encodeAfterDecodeIsTheVector : Obligations.EncodeAfterDecodeIsTheVector := by
  unfold Obligations.EncodeAfterDecodeIsTheVector
  intro r B hne
  have hencode := encodeBits_decodeBits r hne
  refine ⟨hencode, fun hdvd => ?_⟩
  rw [hencode, roundUp_of_dvd (Int.natCast_dvd_natCast.2 hdvd), Int.toNat_natCast, sext_length_self]

/-! ## The Booth digits -/

theorem digitInRange_r4_iff (d : Int) : digitInRange .r4 d = true ↔ d ∈ [-2, -1, 0, 1, 2] := by
  simp only [digitInRange, Bool.and_eq_true, decide_eq_true_eq, List.mem_cons, List.not_mem_nil, or_false]
  omega

theorem digitInRange_r8_iff (d : Int) :
    digitInRange .r8 d = true ↔ d ∈ [-4, -3, -2, -1, 0, 1, 2, 3, 4] := by
  simp only [digitInRange, Bool.and_eq_true, decide_eq_true_eq, List.mem_cons, List.not_mem_nil, or_false]
  omega

theorem digitInRange_of_boothDigits {r : Radix} {B : Bits} {ds : List Int}
    (h : boothDigits r B = .ok ds) : ∀ d ∈ ds, digitInRange r d = true := by
  obtain ⟨-, rfl⟩ := boothDigits_ok_iff.1 h
  intro d hd
  obtain ⟨i, -, rfl⟩ := List.mem_map.1 hd
  exact digitFormula_inRange r B i

/-- The only error of `BOOTH_DIGITS` is that of a length that is no whole number of groups. -/
theorem boothDigits_ne_digitRange (r : Radix) (B : Bits) (g d : Int) :
    boothDigits r B ≠ .error (.digitRange g d) := by
  by_cases h : groupSize r ∣ B.length
  · rw [boothDigits_of_dvd h]; simp
  · rw [boothDigits_of_not_dvd h]; simp

/-- Settles O30: every digit comes from a formula that stays in range. -/
theorem boothDigitsNeverLeaveTheirRange : Obligations.BoothDigitsNeverLeaveTheirRange := by
  unfold Obligations.BoothDigitsNeverLeaveTheirRange
  exact ⟨digitInRange_r4_iff, digitInRange_r8_iff, boothDigits_ne_digitRange,
    fun _ _ _ => digitInRange_of_boothDigits⟩

/-- The weighted sum of digits (42 R106): digit `i` stands at weight `2^(g*i)`. -/
def digitSum (r : Radix) (ds : List Int) : Int :=
  (ds.zipIdx.map (fun di => di.1 * 2 ^ (groupSize r * di.2))).sum

theorem digitSum_concat (r : Radix) (ds : List Int) (d : Int) :
    digitSum r (ds ++ [d]) = digitSum r ds + d * 2 ^ (groupSize r * ds.length) := by
  simp [digitSum, List.zipIdx_append]

/-- One bit more of a vector adds that bit at its weight; places above the vector hold 0. -/
theorem unsignedValue_take_succ (B : Bits) (k : Nat) :
    (unsignedValue (B.take (k + 1)) : Int) = unsignedValue (B.take k) + bitAt B k * 2 ^ k := by
  induction B generalizing k with
  | nil => simp [bitAt]
  | cons b B ih =>
    cases k with
    | zero => simp [bitAt_cons_zero]
    | succ k =>
      rw [List.take_succ_cons, List.take_succ_cons, unsignedValue_cons, unsignedValue_cons,
        bitAt_cons_succ]
      push_cast
      rw [ih k]
      ring

/-- The overlap bit of the group after group `k` is the top bit of group `k` (42 R101). -/
theorem overlapBit_succ (r : Radix) (B : Bits) (k : Nat) :
    overlapBit r B (k + 1) = bitAt B (groupSize r * k + groupSize r - 1) := by
  rw [overlapBit, if_pos (by omega), Nat.mul_succ]

/-- A digit counts the bits of its group and the overlap bit, less the group's top bit at the weight of the
next group, where it is the overlap bit again. -/
theorem unsignedValue_take_group (r : Radix) (B : Bits) (k : Nat) :
    (unsignedValue (B.take (groupSize r * (k + 1))) : Int) =
      unsignedValue (B.take (groupSize r * k)) +
        (digitFormula r B k - overlapBit r B k) * 2 ^ (groupSize r * k) +
        overlapBit r B (k + 1) * 2 ^ (groupSize r * (k + 1)) := by
  rw [overlapBit_succ]
  cases r
  · simp only [digitFormula, groupSize, Nat.mul_succ, unsignedValue_take_succ, pow_succ,
      show 2 * k + 2 - 1 = 2 * k + 1 from rfl]
    ring
  · simp only [digitFormula, groupSize, Nat.mul_succ, unsignedValue_take_succ, pow_succ,
      show 3 * k + 3 - 1 = 3 * k + 2 from rfl]
    ring

/-- The first `k` digits sum to the value of the first `k` groups, less the overlap bit of group `k`. -/
theorem digitSum_digitFormula (r : Radix) (B : Bits) (k : Nat) :
    digitSum r ((List.range k).map (digitFormula r B)) =
      unsignedValue (B.take (groupSize r * k)) - overlapBit r B k * 2 ^ (groupSize r * k) := by
  induction k with
  | zero => simp [digitSum, overlapBit]
  | succ k ih =>
    rw [List.range_succ, List.map_append, List.map_singleton, digitSum_concat, ih, List.length_map,
      List.length_range, unsignedValue_take_group]
    ring

/-- The recoding identity (42 R106): at the last group the overlap bit is the sign bit. -/
theorem digitSum_boothDigits {r : Radix} {B : Bits} {ds : List Int} (hne : B ≠ [])
    (h : boothDigits r B = .ok ds) : digitSum r ds = decodeBits B := by
  obtain ⟨hdvd, rfl⟩ := boothDigits_ok_iff.1 h
  obtain ⟨m, hm⟩ := hdvd
  have hpos : 0 < B.length := List.length_pos_of_ne_nil hne
  have hmpos : 0 < m := Nat.pos_of_ne_zero (by rintro rfl; simp [hm] at hpos)
  have htop : overlapBit r B m = bitAt B (B.length - 1) := by rw [overlapBit, if_pos (Nat.succ_le_of_lt hmpos), hm]
  rw [digitSum_digitFormula, hm, Nat.mul_div_cancel_left m (groupSize_pos r), ← hm, List.take_length,
    htop, decodeBits_eq_of_top_bit]
  rcases bitAt_zero_or_one B (B.length - 1) with h0 | h1
  · simp [h0]
  · simp [h1]

/-- Settles O31: `digitSum` is the statement's sum. -/
theorem digitsSumToTheValue : Obligations.DigitsSumToTheValue := by
  unfold Obligations.DigitsSumToTheValue
  exact fun _ _ _ => digitSum_boothDigits

/-! ## The column engine -/

/-- The columns below `c` of `P` partial products sum to less than `P` times `2^c` (10 R29). -/
theorem columnSum_le (pps : List Bits) (c : Nat) : columnSum pps c ≤ pps.length * (2 ^ c - 1) := by
  have hmod (B : Bits) : unsignedValue B % 2 ^ c ≤ 2 ^ c - 1 :=
    Nat.le_sub_one_of_lt (Nat.mod_lt _ (by positivity))
  rw [columnSum_eq]
  simpa using List.sum_le_card_nsmul (pps.map fun B => unsignedValue B % 2 ^ c) (2 ^ c - 1)
    (by simpa using fun B _ => hmod B)

/-- The carry into a column stays below the number of partial products (10 R29). -/
theorem carry_sumAt_le (pps : List Bits) (s c : Nat) : (sumAt pps s c).carry ≤ pps.length - 1 := by
  have hp : 0 < 2 ^ c := by positivity
  have hle := columnSum_le pps c
  show columnSum pps c / 2 ^ c ≤ pps.length - 1
  cases hP : pps.length with
  | zero => rw [hP, Nat.zero_mul] at hle; simp [Nat.le_zero.1 hle]
  | succ P =>
    rw [hP, Nat.mul_sub_one] at hle
    have hlt : columnSum pps c < (P + 1) * 2 ^ c := by
      have : 0 < (P + 1) * 2 ^ c := by positivity
      omega
    exact Nat.le_of_lt_succ ((Nat.div_lt_iff_lt_mul hp).2 hlt)

/-- Settles O36: a column adds at most one bit of each partial product to the carry. -/
theorem carryAndColumnSumAreBounded : Obligations.CarryAndColumnSumAreBounded := by
  unfold Obligations.CarryAndColumnSumAreBounded
  intro pps s t k hk
  rw [sumLoop_start hk]
  have hcarry := carry_sumAt_le pps s k
  have hcount := columnCount_le pps (sumAt pps s k).c
  exact ⟨hcarry, by omega⟩

theorem unsignedValue_take (B : Bits) (t : Nat) : unsignedValue (B.take t) = unsignedValue B % 2 ^ t := by
  rcases le_total t B.length with ht | ht
  · conv_rhs => rw [← List.take_append_drop t B, unsignedValue_append, List.length_take, min_eq_left ht,
      Nat.add_mul_mod_self_left]
    have hlt := unsignedValue_lt (B.take t)
    rw [List.length_take, min_eq_left ht] at hlt
    exact (Nat.mod_eq_of_lt hlt).symm
  · rw [List.take_of_length_le ht,
      Nat.mod_eq_of_lt ((unsignedValue_lt B).trans_le (Nat.pow_le_pow_right (by omega) ht))]

/-- A number cut at two places: its high part, the part between, and its low part. -/
theorem cut_at_two_places (u : Nat) {s t : Nat} (h : s ≤ t) :
    u / 2 ^ s % 2 ^ (t - s) * 2 ^ s + u / 2 ^ t * 2 ^ t + u % 2 ^ s = u := by
  have hpow : 2 ^ t = 2 ^ s * 2 ^ (t - s) := by rw [← pow_add, Nat.add_sub_cancel' h]
  have hlow := Nat.div_add_mod u (2 ^ s)
  have hhigh := Nat.div_add_mod (u / 2 ^ s) (2 ^ (t - s))
  rw [Nat.div_div_eq_div_mul, ← hpow] at hhigh
  have htop : u / 2 ^ t * 2 ^ t = 2 ^ s * (2 ^ (t - s) * (u / 2 ^ t)) := by
    rw [← mul_assoc, ← hpow, mul_comm]
  calc u / 2 ^ s % 2 ^ (t - s) * 2 ^ s + u / 2 ^ t * 2 ^ t + u % 2 ^ s
      = 2 ^ s * (2 ^ (t - s) * (u / 2 ^ t) + u / 2 ^ s % 2 ^ (t - s)) + u % 2 ^ s := by
        rw [htop]; ring
    _ = u := by rw [hhigh, hlow]

/-- The engine's bits are those of the sum of the columns from `s` up to `t` (44 R142). -/
theorem res_cpa (pps : List Bits) (s t : Nat) :
    (cpa pps s t).res = lowBits (t - s) (columnSum pps t / 2 ^ s) := by
  rw [cpa_eq]; rfl

theorem carry_cpa (pps : List Bits) (s t : Nat) : (cpa pps s t).carry = columnSum pps t / 2 ^ t := by
  rw [cpa_eq]; rfl

/-- Settles O39: emitted bits, carry and low part are the sum of the columns cut at `s` and at `t`. -/
theorem emittedBitsCarryAndLowBitsMakeTheSum : Obligations.EmittedBitsCarryAndLowBitsMakeTheSum := by
  unfold Obligations.EmittedBitsCarryAndLowBitsMakeTheSum
  intro pps s t hst
  refine ⟨columnSum pps t % 2 ^ s, Nat.mod_lt _ (by positivity), ?_⟩
  simp only [unsignedValue_take, ← columnSum_eq]
  rw [res_cpa, carry_cpa, unsignedValue_lowBits]
  exact cut_at_two_places _ hst.le

/-- The engine's decoded result, of whatever partial products: the sum of the columns, without its low `s`
bits, in `t - s` bits. -/
theorem decodeBits_cpa (pps : List Bits) {s t : Nat} (h : s < t) :
    decodeBits (cpa pps s t).res = Int.bmod ((columnSum pps t / 2 ^ s : Nat) : Int) (2 ^ (t - s)) := by
  rw [res_cpa, decodeBits_lowBits (by omega)]

/-- Over partial products that reach column `t`, the sum of the columns is the sum of the signed values
modulo `2^t` (44 R146). -/
theorem columnSum_modEq {pps : List Bits} {t : Nat} (h : ∀ p ∈ pps, t ≤ p.length) :
    (columnSum pps t : Int) ≡ (pps.map decodeBits).sum [ZMOD (2 ^ t : Nat)] := by
  rw [columnSum_eq]
  induction pps with
  | nil => rfl
  | cons p pps ih =>
    rw [List.forall_mem_cons] at h
    simp only [List.map_cons, List.sum_cons]
    push_cast at ih ⊢
    refine Int.ModEq.add ?_ (ih h.2)
    have hvalue : decodeBits p ≡ unsignedValue p [ZMOD 2 ^ p.length] := by
      rw [← decodeBits_emod p]; exact (Int.mod_modEq _ _).symm
    exact (Int.mod_modEq _ _).trans (hvalue.of_dvd (pow_dvd_pow 2 h.1)).symm

/-- Remainders that agree modulo `m` are balanced alike. -/
theorem bmod_congr {a b : Int} {m : Nat} (h : a ≡ b [ZMOD m]) : Int.bmod a m = Int.bmod b m := by
  rw [← Int.emod_bmod, h, Int.emod_bmod]

/-- `CPA_FULL` over partial products that reach its top column (44 R146). -/
theorem decodeBits_cpa_zero {pps : List Bits} {t : Nat} (ht : 1 ≤ t) (h : ∀ p ∈ pps, t ≤ p.length) :
    decodeBits (cpa pps 0 t).res = Int.bmod (pps.map decodeBits).sum (2 ^ t) := by
  rw [decodeBits_cpa pps ht, pow_zero, Nat.div_one]
  exact bmod_congr (columnSum_modEq h)

/-- Settles O40: every partial product has a bit, so the engine's result is the response. -/
theorem cpaFullIsTheSumModuloItsWidth : Obligations.CpaFullIsTheSumModuloItsWidth := by
  unfold Obligations.CpaFullIsTheSumModuloItsWidth
  intro s tag pps t ht hpps
  have hne : ∀ p ∈ pps, p ≠ [] := fun p hp => List.ne_nil_of_length_pos (ht.trans (hpps p hp))
  rw [exec_cpaFull_of_wf s tag t (all_wf_of_ne_nil hne), cpaFull, if_neg (by omega), Int.toNat_natCast,
    decodeBits_cpa_zero ht hpps]
  rfl

theorem drop_lowBits (len k u : Nat) : (lowBits len u).drop k = lowBits (len - k) (u / 2 ^ k) := by
  induction k generalizing len u with
  | zero => simp
  | succ k ih =>
    cases len with
    | zero => simp [lowBits]
    | succ len =>
      rw [lowBits_succ, List.drop_succ_cons, ih, Nat.add_sub_add_right, Nat.div_div_eq_div_mul, ← pow_succ']

/-- Settles O41: both engines run over the same columns, and the bits above column `n` are those of the sum
without its low `n` bits. -/
theorem truncatedBitsAreTheFullEnginesHighBits : Obligations.TruncatedBitsAreTheFullEnginesHighBits := by
  unfold Obligations.TruncatedBitsAreTheFullEnginesHighBits
  intro pps n hn
  refine ⟨by rw [sumLoop_start (by omega), sumLoop_start (by omega)]; rfl, ?_⟩
  rw [res_cpa, res_cpa, slice, drop_lowBits, List.take_of_length_le (by rw [lowBits_length]; omega),
    pow_zero, Nat.div_one, Nat.sub_zero]

end Sys2Proof.Machine
end

section
/-! PROOFS. The family `other`, multiplication: the data flow of a multiplication never raises an internal error and its
partial products sum to the product (45 R170 to R182). -/

namespace Sys2Proof.Machine

/-! ## Magnitudes -/

theorem natAbs_le_of_fits {v : Int} {w : Nat} (h : fits v w = true) : v.natAbs ≤ 2 ^ (w - 1) := by
  have hw := fits_pos h
  obtain ⟨k, rfl⟩ : ∃ k, w = k + 1 := ⟨w - 1, by omega⟩
  obtain ⟨hlo, hhi⟩ := (fits_succ v k).1 h
  have hcast : ((2 ^ k : Nat) : Int) = 2 ^ k := by push_cast; rfl
  rw [Nat.add_sub_cancel]
  omega

theorem fits_of_natAbs_lt {v : Int} {w : Nat} (hw : 1 ≤ w) (h : v.natAbs < 2 ^ (w - 1)) :
    fits v w = true :=
  fits_of_bitlen_lt (by have := (bitlen_le_iff v _).2 h; omega)

/-- A digit in range is at most half a group's weight (42 R104). -/
theorem natAbs_le_of_digitInRange {r : Radix} {d : Int} (h : digitInRange r d = true) :
    d.natAbs ≤ 2 ^ (groupSize r - 1) := by
  cases r <;> simp [digitInRange] at h ⊢ <;> omega

/-- The product of two `w`-bit operands fits `2w` bits with a bit to spare. -/
theorem natAbs_mul_le {x y : Int} {w : Nat} (hx : fits x w = true) (hy : fits y w = true) :
    (x * y).natAbs ≤ 2 ^ (2 * w - 2) := by
  have hw := fits_pos hx
  calc (x * y).natAbs = x.natAbs * y.natAbs := Int.natAbs_mul x y
    _ ≤ 2 ^ (w - 1) * 2 ^ (w - 1) := Nat.mul_le_mul (natAbs_le_of_fits hx) (natAbs_le_of_fits hy)
    _ = 2 ^ (2 * w - 2) := by rw [← pow_add]; congr 1; omega

theorem fits_mul {x y : Int} {w : Nat} (hx : fits x w = true) (hy : fits y w = true) :
    fits (x * y) (2 * w : Nat) = true := by
  have hw := fits_pos hx
  exact fits_of_natAbs_lt (by omega)
    ((natAbs_mul_le hx hy).trans_lt (Nat.pow_lt_pow_right (by omega) (by omega)))

/-- The aligned multiple of a `w`-bit multiplicand for a group of a `w`-bit multiplier fits `2w` bits
(43 R123). -/
theorem fits_alignedMultiple {r : Radix} {x d : Int} {w i : Nat} (hd : digitInRange r d = true)
    (hx : fits x w = true) (hi : groupSize r * i + groupSize r ≤ w) :
    fits (d * x * 2 ^ (groupSize r * i)) (2 * w : Nat) = true := by
  have hw := fits_pos hx
  have hg := groupSize_pos r
  refine fits_of_natAbs_lt (by omega) ?_
  calc (d * x * 2 ^ (groupSize r * i)).natAbs
      = d.natAbs * x.natAbs * 2 ^ (groupSize r * i) := by
        rw [Int.natAbs_mul, Int.natAbs_mul, Int.natAbs_pow]; rfl
    _ ≤ 2 ^ (groupSize r - 1) * 2 ^ (w - 1) * 2 ^ (groupSize r * i) :=
        Nat.mul_le_mul_right _ (Nat.mul_le_mul (natAbs_le_of_digitInRange hd) (natAbs_le_of_fits hx))
    _ = 2 ^ (groupSize r - 1 + (w - 1) + groupSize r * i) := by rw [pow_add, pow_add]
    _ < 2 ^ (2 * w - 1) := Nat.pow_lt_pow_right (by omega) (by omega)

/-! ## The data flow -/

/-- The partial product of a digit and its group index in `2w` bits (43 R121, R122). -/
def alignedPattern (r : Radix) (x : Int) (w : Nat) (di : Int × Nat) : Bits :=
  lowBits (2 * w) (di.1 * x * 2 ^ (groupSize r * di.2) % 2 ^ (2 * w)).toNat

section
variable {r : Radix} {x : Int} {w : Nat} {di : Int × Nat} (hdvd : groupSize r ∣ w) (hx : fits x w = true)
  (hd : digitInRange r di.1 = true) (hi : groupSize r * di.2 + groupSize r ≤ w)
include hdvd hx hd hi

theorem encodeBits_alignedMultiple :
    encodeBits r (di.1 * x * 2 ^ (groupSize r * di.2)) (2 * w : Nat) = .ok (alignedPattern r x w di) :=
  encodeBits_of_fits (Dvd.dvd.mul_left hdvd 2) (fits_alignedMultiple hd hx hi)

theorem ppGen_eq_alignedPattern :
    ppGen r x di.1 (di.2 : Nat) (2 * w : Nat) = .ok (alignedPattern r x w di) := by
  rw [ppGen_encode hd, encodeBits_alignedMultiple hdvd hx hd hi]

theorem decodeBits_alignedPattern :
    decodeBits (alignedPattern r x w di) = x * (di.1 * 2 ^ (groupSize r * di.2)) := by
  rw [decodeBits_encodeBits (encodeBits_alignedMultiple hdvd hx hd hi)]
  ring

end

/-- Digits in range, no more than the multiplier has groups: every partial product is generated, in `2w` bits,
and together they are the multiplicand times the digits' sum (45 R172, R178). -/
theorem partialProducts_ok {r : Radix} {x : Int} {ds : List Int} {w : Nat} (hdvd : groupSize r ∣ w)
    (hx : fits x w = true) (hds : ∀ d ∈ ds, digitInRange r d = true)
    (hlen : groupSize r * ds.length ≤ w) :
    ∃ pps, partialProducts r x ds (2 * w) = .ok pps ∧ (∀ p ∈ pps, p.length = 2 * w) ∧
      (pps.map decodeBits).sum = x * digitSum r ds := by
  have hdigit (di : Int × Nat) (h : di ∈ ds.zipIdx) : digitInRange r di.1 = true :=
    hds _ (List.fst_mem_of_mem_zipIdx h)
  have hgroup (di : Int × Nat) (h : di ∈ ds.zipIdx) : groupSize r * di.2 + groupSize r ≤ w := by
    have hlt : di.2 < ds.length := by simpa using List.snd_lt_of_mem_zipIdx h
    rw [← Nat.mul_succ]
    exact (Nat.mul_le_mul_left _ hlt).trans hlen
  refine ⟨ds.zipIdx.map (alignedPattern r x w), ?_, ?_, ?_⟩
  · exact collect_eq_map fun di h => ppGen_eq_alignedPattern hdvd hx (hdigit di h) (hgroup di h)
  · intro p hp
    obtain ⟨di, -, rfl⟩ := List.mem_map.1 hp
    exact lowBits_length _ _
  · rw [List.map_map, digitSum, ← List.sum_map_mul_left]
    exact congrArg List.sum (List.map_congr_left fun di h =>
      decodeBits_alignedPattern hdvd hx (hdigit di h) (hgroup di h))

/-- The values of the data flow of a multiplication at working width `w`, each defined from the one before, and
what they come to: partial products of `2w` bits that sum to the product. -/
structure MulFlow (r : Radix) (x y : Int) (w : Nat) (Y : Bits) (ds : List Int) (pps : List Bits) :
    Prop where
  encoded : encodeBits r y w = .ok Y
  recoded : boothDigits r Y = .ok ds
  multiplied : partialProducts r x ds (2 * w) = .ok pps
  length : ∀ p ∈ pps, p.length = 2 * w
  sum : (pps.map decodeBits).sum = x * y

/-- No function inside a multiplication raises an error at a working width of whole groups that both operands
fit (60 R200): the multiplier is encoded, its length is a whole number of groups, and the digits are in
range. -/
theorem exists_mulFlow {r : Radix} {x y : Int} {w : Nat} (hdvd : groupSize r ∣ w) (hx : fits x w = true)
    (hy : fits y w = true) : ∃ Y ds pps, MulFlow r x y w Y ds pps := by
  have hY := encodeBits_of_fits hdvd hy
  have hlen := lowBits_length w (y % 2 ^ w).toNat
  have hds := boothDigits_of_dvd (r := r) (hlen.symm ▸ hdvd)
  obtain ⟨pps, hpps, hlength, hsum⟩ := partialProducts_ok (ds := _) hdvd hx
    (digitInRange_of_boothDigits hds)
    (by rw [List.length_map, List.length_range, hlen]; exact Nat.mul_div_le w _)
  have hne := List.ne_nil_of_length_pos ((wf_iff_length_pos _).1 (wf_encodeBits hY))
  refine ⟨_, _, pps, hY, hds, hpps, hlength, ?_⟩
  rw [hsum, digitSum_boothDigits hne hds, decodeBits_encodeBits hY]

/-- With the values of its data flow a multiplication is its sum. -/
theorem MulFlow.multiplyAt_eq {r : Radix} {x y : Int} {w : Nat} {Y : Bits} {ds : List Int}
    {pps : List Bits} (h : MulFlow r x y w Y ds pps) (sum : List Bits → Except Info Int) (out : Nat) :
    multiplyAt r x y w sum out =
      internally (sum pps) fun result => .ok (.int result) (some out) := by
  rw [multiplyAt, h.encoded, internally_ok, h.recoded, internally_ok, h.multiplied, internally_ok]

/-! ## The two sums -/

/-- The full sum of a data flow is the product: it fits `2w` bits (45 R173). -/
theorem MulFlow.full_sum {r : Radix} {x y : Int} {w : Nat} {Y : Bits} {ds : List Int} {pps : List Bits}
    (h : MulFlow r x y w Y ds pps) (hx : fits x w = true) (hy : fits y w = true) :
    decodeBits (cpa pps 0 (2 * w)).res = x * y := by
  have hw := fits_pos hx
  rw [decodeBits_cpa_zero (by omega) fun p hp => (h.length p hp).ge, h.sum, bmod_of_fits (fits_mul hx hy)]

/-- The high half of a product of `n`-bit operands fits `n` bits (45 R179). -/
theorem fits_floor {x y : Int} {n : Nat} (hx : fits x n = true) (hy : fits y n = true) :
    fits (x * y / 2 ^ n) n = true := by
  have hn := fits_pos hx
  obtain ⟨k, rfl⟩ : ∃ k, n = k + 1 := ⟨n - 1, by omega⟩
  have hmag := natAbs_mul_le hx hy
  have hpow : (2 : Nat) ^ (2 * (k + 1) - 2) = 2 ^ k * 2 ^ k := by rw [← pow_add]; congr 1; omega
  have hcast : ((x * y).natAbs : Int) ≤ 2 ^ k * 2 ^ k := by rw [hpow] at hmag; exact_mod_cast hmag
  have hp : (0 : Int) < 2 ^ k := by positivity
  have hn2 : (2 : Int) ^ (k + 1) = 2 * 2 ^ k := by ring
  rw [fits_succ, hn2]
  constructor
  · rw [Int.le_ediv_iff_mul_le (by omega)]
    nlinarith [(by omega : -((x * y).natAbs : Int) ≤ x * y)]
  · rw [Int.ediv_lt_iff_lt_mul (by omega)]
    nlinarith [(by omega : x * y ≤ ((x * y).natAbs : Int))]

/-- Two numbers that agree modulo `2^(2n)` agree modulo `2^n` without their low `n` bits. -/
theorem ediv_modEq {a b : Int} {n : Nat} (h : a ≡ b [ZMOD (2 ^ (2 * n) : Nat)]) :
    a / 2 ^ n ≡ b / 2 ^ n [ZMOD (2 ^ n : Nat)] := by
  obtain ⟨k, hk⟩ := h.symm.dvd
  have hpow : ((2 ^ (2 * n) : Nat) : Int) * k = 2 ^ n * (2 ^ n * k) := by
    push_cast; rw [two_mul, pow_add, mul_assoc]
  obtain rfl : a = b + 2 ^ n * (2 ^ n * k) := by rw [← hpow, ← hk]; ring
  rw [Int.add_mul_ediv_left _ _ (by positivity)]
  push_cast
  exact Int.add_mul_emod_self_left _ _ _

/-- The truncated sum of a data flow whose working width is at least `n` is the floor (45 R179). -/
theorem MulFlow.trunc_sum {r : Radix} {x y : Int} {w n : Nat} {Y : Bits} {ds : List Int} {pps : List Bits}
    (h : MulFlow r x y w Y ds pps) (hw : n ≤ w) (hx : fits x n = true) (hy : fits y n = true) :
    decodeBits (cpa pps n (2 * n)).res = x * y / 2 ^ n := by
  have hn := fits_pos hx
  have hreach : ∀ p ∈ pps, 2 * n ≤ p.length := fun p hp => by rw [h.length p hp]; omega
  have hsum : (columnSum pps (2 * n) : Int) ≡ x * y [ZMOD (2 ^ (2 * n) : Nat)] :=
    h.sum ▸ columnSum_modEq hreach
  rw [decodeBits_cpa pps (by omega), show 2 * n - n = n by omega, ← bmod_of_fits (fits_floor hx hy)]
  push_cast
  exact bmod_congr (ediv_modEq hsum)

/-! ## The answers -/

theorem workingWidth_eq_roundUp {r : Radix} {n : Int} (hn : 1 ≤ n) :
    (workingWidth r n : Int) = roundUp n (groupSize r) := by
  have := le_roundUp n r
  exact Int.toNat_of_nonneg (by omega)

/-- A working width that a multiplication may use: a whole number of groups that holds both operands. -/
def Workable (r : Radix) (x y : Int) (w : Nat) : Prop :=
  groupSize r ∣ w ∧ fits x w = true ∧ fits y w = true

theorem workable_workingLength (r : Radix) (x y : Int) : Workable r x y (workingLength r x y) := by
  obtain ⟨-, hdvd, -, -, hx, hy⟩ := workingLengthHoldsBothOperands r x y
  exact ⟨hdvd, hx, hy⟩

theorem le_workingWidth (r : Radix) (n : Int) : n ≤ workingWidth r n :=
  (le_roundUp n r).trans (Int.self_le_toNat _)

theorem workable_workingWidth (r : Radix) {x y n : Int} (hn : 1 ≤ n) (hx : fits x n = true)
    (hy : fits y n = true) : Workable r x y (workingWidth r n) := by
  lift n to Nat using by omega
  have hle : n ≤ workingWidth r n := Int.ofNat_le.1 (le_workingWidth r n)
  refine ⟨?_, fits_mono hle hx, fits_mono hle hy⟩
  rw [← Int.natCast_dvd_natCast, workingWidth_eq_roundUp hn]
  exact (roundUp_spec n r).1

theorem answerMulFull_of_error {cfg : Config} {x y : Int} {e : Info} (h : requirePorts cfg x y = .error e) :
    answerMulFull cfg x y = .error e := by
  rw [answerMulFull, h, orAnswer_error]

theorem answerMulTrunc_of_error {cfg : Config} {x y n : Int} {e : Info}
    (h : truncChecks cfg x y n = .error e) : answerMulTrunc cfg x y n = .error e := by
  rw [answerMulTrunc, h, orAnswer_error]

/-- Past its check `MUL.FULL` answers the product (45 R173). -/
theorem answerMulFull_of_ok {cfg : Config} {x y : Int} (h : requirePorts cfg x y = .ok ()) :
    answerMulFull cfg x y = .ok (.int (x * y)) (some (2 * workingLength cfg.radix x y)) := by
  obtain ⟨hdvd, hx, hy⟩ := workable_workingLength cfg.radix x y
  obtain ⟨Y, ds, pps, hflow⟩ := exists_mulFlow hdvd hx hy
  have hw := fits_pos hx
  rw [answerMulFull, h, orAnswer_ok, hflow.multiplyAt_eq, cpaFull, if_neg (by omega), Int.toNat_natCast,
    hflow.full_sum hx hy, internally_ok]

/-- Past its checks `MUL.TRUNC` answers the floor (45 R179). -/
theorem answerMulTrunc_of_ok {cfg : Config} {x y n : Int} (h : truncChecks cfg x y n = .ok ()) :
    answerMulTrunc cfg x y n = .ok (.int (x * y / 2 ^ n.toNat)) (some n.toNat) := by
  obtain ⟨-, hn, hx, hy⟩ := truncChecks_ok_iff.1 h
  obtain ⟨hdvd, hxw, hyw⟩ := workable_workingWidth cfg.radix hn hx hy
  obtain ⟨Y, ds, pps, hflow⟩ := exists_mulFlow hdvd hxw hyw
  lift n to Nat using by omega
  rw [answerMulTrunc, h, orAnswer_ok, hflow.multiplyAt_eq, cpaTrunc, if_neg (by omega), Int.toNat_natCast,
    hflow.trunc_sum (Int.ofNat_le.1 (le_workingWidth cfg.radix n)) hx hy, internally_ok]

/-- Settles O43: the full sum of the data flow is the product. -/
theorem mulFullIsTheExactProduct : Obligations.MulFullIsTheExactProduct := by
  unfold Obligations.MulFullIsTheExactProduct
  intro s tag x y n hadmitted
  rw [exec_eq_finish, answerOf, answerMulFull_of_ok (requirePorts_ok_iff.2 hadmitted)]
  rfl

/-- Settles O44: the truncated sum is the quotient, and a floored quotient lies where the statement says. -/
theorem mulTruncIsTheFloorOfTheProduct : Obligations.MulTruncIsTheFloorOfTheProduct := by
  unfold Obligations.MulTruncIsTheFloorOfTheProduct
  intro s tag x y n hn hx hy hadmitted
  have hpow : (0 : Int) < 2 ^ n := by positivity
  have hchecks : truncChecks s.cfg x y n = .ok () :=
    truncChecks_ok_iff.2 ⟨requirePorts_ok_iff.2 hadmitted, by omega, hx, hy⟩
  refine ⟨x * y / 2 ^ n, (Int.fdiv_eq_ediv_of_nonneg _ hpow.le).symm, Int.ediv_mul_le _ hpow.ne',
    Int.lt_ediv_add_one_mul_self _ hpow, ?_⟩
  rw [exec_eq_finish, answerOf, answerMulTrunc_of_ok hchecks]
  rfl

/-- The checks of `MUL.TRUNC` see the operand ports only. -/
theorem truncChecks_radix (cfg : Config) (radix : Radix) (x y n : Int) :
    truncChecks { cfg with radix := radix } x y n = truncChecks cfg x y n := rfl

/-- The answer of `MUL.TRUNC` does not depend on the radix (45 R181). -/
theorem answerMulTrunc_radix (cfg : Config) (radix : Radix) (x y n : Int) :
    answerMulTrunc { cfg with radix := radix } x y n = answerMulTrunc cfg x y n := by
  cases h : truncChecks cfg x y n with
  | error e => rw [answerMulTrunc_of_error h, answerMulTrunc_of_error ((truncChecks_radix ..).trans h)]
  | ok u => rw [answerMulTrunc_of_ok h, answerMulTrunc_of_ok ((truncChecks_radix ..).trans h)]

end Sys2Proof.Machine
end

section
/-! PROOFS. The family `other`, answers: every instruction that can be written is answered by one well-formed response
(30 R67, 60 R197), and what else `exec` and `step` leave unchanged. -/

namespace Sys2Proof.Machine

/-! ## Well-formed responses -/

/-- An answer that is one well-formed response to the request with the tag. -/
def Answer.Responds (tag : Tag) (a : Answer) : Prop :=
  ∃ r, a.response tag = some r ∧ r.tag = tag ∧ r.wf = true

theorem errorResponse_wf (tag : Tag) (e : Info) : (errorResponse tag e).wf = true := by
  simp [errorResponse, Response.wf]

section
variable (tag : Tag)

theorem responds_error (e : Info) : (Answer.error e).Responds tag := ⟨_, rfl, rfl, errorResponse_wf tag e⟩

theorem responds_int {v : Int} {w : Nat} (h : fits v w = true) :
    (Answer.ok (.int v) (some w)).Responds tag := ⟨_, rfl, rfl, h⟩

theorem responds_bits {B : Bits} (h : B.wf = true) : (Answer.ok (.bits B) none).Responds tag :=
  ⟨_, rfl, rfl, h⟩

theorem responds_ints (l : List Int) : (Answer.ok (.ints l) none).Responds tag := ⟨_, rfl, rfl, rfl⟩

/-- A result whose error is answered responds when what is made of each value does. -/
theorem responds_orAnswer {α : Type} {e : Except Info α} {k : α → Answer}
    (h : ∀ a, e = .ok a → (k a).Responds tag) : (orAnswer e k).Responds tag := by
  cases e with
  | error i => exact responds_error tag i
  | ok a => exact h a rfl

theorem responds_mulFull (cfg : Config) (x y : Int) : (answerMulFull cfg x y).Responds tag := by
  cases h : requirePorts cfg x y with
  | error e => rw [answerMulFull_of_error h]; exact responds_error tag e
  | ok u =>
    obtain ⟨-, hx, hy⟩ := workable_workingLength cfg.radix x y
    rw [answerMulFull_of_ok h]
    exact responds_int tag (fits_mul hx hy)

theorem responds_mulTrunc (cfg : Config) (x y n : Int) : (answerMulTrunc cfg x y n).Responds tag := by
  cases h : truncChecks cfg x y n with
  | error e => rw [answerMulTrunc_of_error h]; exact responds_error tag e
  | ok u =>
    obtain ⟨-, hn, hx, hy⟩ := truncChecks_ok_iff.1 h
    rw [answerMulTrunc_of_ok h]
    lift n to Nat using by omega
    exact responds_int tag (fits_floor hx hy)

/-- `w` emitted bits are a `w`-bit value. -/
theorem fits_decodeBits_cpa (pps : List Bits) {s t w : Nat} (hw : 1 ≤ w) (ht : t - s = w) :
    fits (decodeBits (cpa pps s t).res) w = true := by
  have hlength : (cpa pps s t).res.length = w := (length_cpa_res pps s t).trans ht
  exact hlength ▸ fits_decodeBits _ ((wf_iff_length_pos _).2 (by omega))

theorem cpaFull_ok_iff {pps : List Bits} {t v : Int} :
    cpaFull pps t = .ok v ↔ 1 ≤ t ∧ decodeBits (cpa pps 0 t.toNat).res = v := by
  unfold cpaFull
  split
  · next h => simp; omega
  · next h => simp; omega

theorem cpaTrunc_ok_iff {pps : List Bits} {n v : Int} :
    cpaTrunc pps n = .ok v ↔ 1 ≤ n ∧ decodeBits (cpa pps n.toNat (2 * n.toNat)).res = v := by
  unfold cpaTrunc
  split
  · next h => simp; omega
  · next h => simp; omega

theorem responds_cpaFull {pps : List Bits} (h : pps.all Bits.wf = true) (t : Int) :
    (answerCpaFull pps t).Responds tag := by
  rw [answerCpaFull, if_pos h]
  refine responds_orAnswer tag fun v hv => ?_
  obtain ⟨ht, rfl⟩ := cpaFull_ok_iff.1 hv
  exact responds_int tag (fits_decodeBits_cpa pps (by omega) (Nat.sub_zero _))

theorem responds_cpaTrunc {pps : List Bits} (h : pps.all Bits.wf = true) (n : Int) :
    (answerCpaTrunc pps n).Responds tag := by
  rw [answerCpaTrunc, if_pos h]
  refine responds_orAnswer tag fun v hv => ?_
  obtain ⟨hn, rfl⟩ := cpaTrunc_ok_iff.1 hv
  exact responds_int tag (fits_decodeBits_cpa pps (by omega) (by omega))

theorem responds_bvEncode (cfg : Config) (v w : Int) : (answerBvEncode cfg v w).Responds tag :=
  responds_orAnswer tag fun _ hB => responds_bits tag (wf_encodeBits hB)

theorem responds_ppGen (cfg : Config) (x d i rw : Int) : (answerPpGen cfg x d i rw).Responds tag :=
  responds_orAnswer tag fun _ hB => responds_bits tag (wf_encodeBits (ppGen_ok_iff.1 hB).2.2)

theorem responds_bvDecode {B : Bits} (h : B.wf = true) : (answerBvDecode B).Responds tag := by
  rw [answerBvDecode, if_pos h]
  exact responds_int tag (fits_decodeBits B h)

theorem responds_boothDigits (cfg : Config) {B : Bits} (h : B.wf = true) :
    (answerBoothDigits cfg B).Responds tag := by
  rw [answerBoothDigits, if_pos h]
  exact responds_orAnswer tag fun ds _ => responds_ints tag ds

end

/-- The answer of every instruction that can be written is one well-formed response, in every
configuration. -/
theorem responds_answerOf (cfg : Config) {i : Instr} (h : i.wf = true) :
    (answerOf cfg i).Responds i.tag := by
  cases i with
  | mulFull tag x y n => exact responds_mulFull tag cfg x y
  | mulTrunc tag x y n => exact responds_mulTrunc tag cfg x y n
  | bvEncode tag v w => exact responds_bvEncode tag cfg v w
  | bvDecode tag B => exact responds_bvDecode tag h
  | boothDigits tag B => exact responds_boothDigits tag cfg h
  | ppGen tag x d i rw => exact responds_ppGen tag cfg x d i rw
  | cpaFull tag pps t => exact responds_cpaFull tag h t
  | cpaTrunc tag pps t => exact responds_cpaTrunc tag h t

/-- `exec` returns that response, in every state. -/
theorem exec_of_wf {i : Instr} (h : i.wf = true) (s : State) :
    ∃ r, (answerOf s.cfg i).response i.tag = some r ∧ r.tag = i.tag ∧ r.wf = true ∧
      exec i s = .next (s.returning r) := by
  obtain ⟨r, hr, htag, hwf⟩ := responds_answerOf s.cfg h
  exact ⟨r, hr, htag, hwf, by rw [exec_eq_finish, finish_of_response i.tag s hr]⟩

/-- Settles O14: the response that `exec_of_wf` gives is the only update. -/
theorem everyRequestGetsExactlyOneResponse : Obligations.EveryRequestGetsExactlyOneResponse := by
  unfold Obligations.EveryRequestGetsExactlyOneResponse
  intro i s hwf _
  obtain ⟨r, -, htag, hr, hexec⟩ := exec_of_wf hwf s
  exact ⟨r, htag, hr, hexec⟩

/-- Settles O15: `returning` changes the responses only. -/
theorem execLeavesEverythingElse : Obligations.ExecLeavesEverythingElse := by
  unfold Obligations.ExecLeavesEverythingElse
  intro i s t h
  obtain ⟨r, htag, rfl⟩ := exec_next h
  exact ⟨rfl, rfl, rfl, rfl, r, htag, rfl⟩

/-- An instruction that cannot be written has an empty bit vector, and the functions that take one stop on it
(log 8). -/
theorem answerOf_of_not_wf (cfg : Config) {i : Instr} (h : i.wf = false) :
    answerOf cfg i = .fault .emptyBitVector := by
  have hnot {b : Bool} (hb : b = false) : ¬ b = true := by simp [hb]
  cases i with
  | mulFull _ _ _ _ => cases h
  | mulTrunc _ _ _ _ => cases h
  | bvEncode _ _ _ => cases h
  | ppGen _ _ _ _ _ => cases h
  | bvDecode tag B => exact if_neg (hnot h)
  | boothDigits tag B => exact if_neg (hnot h)
  | cpaFull tag pps t => exact if_neg (hnot h)
  | cpaTrunc tag pps t => exact if_neg (hnot h)

/-- Settles O17: the answer of such an instruction is the fault. -/
theorem emptyBitVectorFaults : Obligations.EmptyBitVectorFaults := by
  unfold Obligations.EmptyBitVectorFaults
  intro i s h
  rw [exec_eq_finish, answerOf_of_not_wf s.cfg h, finish_fault]

/-! ## The multiplications' checks and radix -/

/-- An error of the operand ports is the response of both multiplications (00 R8, 60 R199). -/
theorem exec_mul_of_ports_error {s : State} {x y : Int} {e : Info} (tag : Tag) (n : Int)
    (h : requirePorts s.cfg x y = .error e) :
    exec (.mulFull tag x y n) s = .next (raise tag e s) ∧
      exec (.mulTrunc tag x y n) s = .next (raise tag e s) := by
  constructor
  · rw [exec_eq_finish, answerOf, answerMulFull_of_error h]; rfl
  · exact exec_mulTrunc_of_error tag (by rw [truncChecks, h]; rfl)

/-- Settles O46: the ports hold `x`, then `y`, against `N` bits. -/
theorem operandPortsAreCheckedFirst : Obligations.OperandPortsAreCheckedFirst := by
  unfold Obligations.OperandPortsAreCheckedFirst
  intro s tag x y n N hN
  have hports : requirePorts s.cfg x y = requireBothFit x y N := by rw [requirePorts, hN]
  exact ⟨fun hx => exec_mul_of_ports_error tag n (hports.trans (requireBothFit_of_not_fits_left hx)),
    fun hx hy => exec_mul_of_ports_error tag n (hports.trans (requireBothFit_of_not_fits_right hx hy))⟩

/-- `MUL.FULL` answers the same under both radices but for its width (45 R174). -/
theorem exec_mulFull_radix (s : State) (tag : Tag) (x y n : Int) :
    ∃ (status : Status) (value : Option Value) (info : Option Info), ∀ radix : Radix,
      ∃ width : Option Nat, exec (.mulFull tag x y n) { s with cfg := { s.cfg with radix := radix } } =
        .next (State.returning { s with cfg := { s.cfg with radix := radix } }
          { tag := tag, status := status, value := value, width := width, info := info }) := by
  cases h : requirePorts s.cfg x y with
  | error e =>
    exact ⟨e.status, none, some e, fun radix => ⟨none,
      (exec_mul_of_ports_error (s := { s with cfg := { s.cfg with radix := radix } }) tag n h).1⟩⟩
  | ok u =>
    refine ⟨.ok, some (.int (x * y)), none, fun radix => ⟨some (2 * workingLength radix x y), ?_⟩⟩
    have hanswer := answerMulFull_of_ok (cfg := { s.cfg with radix := radix }) h
    exact (exec_eq_finish _ _).trans (congrArg (finish tag · _) hanswer)

/-- Settles O48: the answers past the checks are `x * y` and its floor, whatever the radix is. -/
theorem radixDoesNotChangeTheProduct : Obligations.RadixDoesNotChangeTheProduct := by
  unfold Obligations.RadixDoesNotChangeTheProduct
  intro s tag x y n _
  constructor
  · obtain ⟨status, value, info, hfull⟩ := exec_mulFull_radix s tag x y n
    obtain ⟨w4, h4⟩ := hfull .r4
    obtain ⟨w8, h8⟩ := hfull .r8
    exact ⟨_, _, h4, h8, rfl, rfl, rfl⟩
  · obtain ⟨r, hr, -, -⟩ := responds_mulTrunc tag s.cfg x y n
    refine ⟨r, fun radix => ?_⟩
    rw [← answerMulTrunc_radix s.cfg radix] at hr
    exact (exec_eq_finish _ _).trans (finish_of_response tag _ hr)

/-! ## What every step keeps -/

/-- A next state after which the configuration is the same, the inputs are the given ones, and there is at most
one response more. -/
def KeepsAndTakes (s t : State) (inputs : List Input) : Prop :=
  t.cfg = s.cfg ∧ t.inputs = inputs ∧ (t.responses = s.responses ∨ ∃ r, t.responses = s.responses ++ [r])

theorem advanceAt_keeps {s t : State} {k : Nat} (h : advanceAt k s = .next t) :
    KeepsAndTakes s t s.inputs := by
  rcases advanceAt_next h with ⟨-, rfl⟩ | ⟨o, o', -, -, rfl⟩ | ⟨o, a, -, -, h⟩
  · exact ⟨rfl, rfl, .inl rfl⟩
  · exact ⟨rfl, rfl, .inl rfl⟩
  · obtain ⟨r, -, -, rfl⟩ := finish_next _ _ h
    exact ⟨rfl, rfl, .inr ⟨r, rfl⟩⟩

theorem answerAt_keeps {s t : State} {k : Nat} (h : answerAt k s = .next t) :
    KeepsAndTakes s t s.inputs := by
  rcases answerAt_eq (s := s) k with ⟨-, hs⟩ | ⟨x, -, hs⟩ <;> rw [hs] at h <;> cases h
  · exact ⟨rfl, rfl, .inl rfl⟩
  · exact ⟨rfl, rfl, .inr ⟨_, rfl⟩⟩

/-- What an input makes of a state from which it has been taken. -/
theorem take_keeps {s t : State} {input : Input} (h : take input s = .next t) :
    KeepsAndTakes s t s.inputs := by
  cases input with
  | request iface r =>
    obtain ⟨a, -, rfl⟩ := serve_next h
    exact ⟨rfl, rfl, .inr ⟨a, rfl⟩⟩
  | launch iface r =>
    rcases launch_next h with ⟨i, -, rfl⟩ | ⟨fn, -, rfl⟩
    · exact ⟨rfl, rfl, .inl rfl⟩
    · exact ⟨rfl, rfl, .inl rfl⟩
  | advance k => exact advanceAt_keeps h
  | answer k => exact answerAt_keeps h
  | reset => cases h; exact ⟨rfl, rfl, .inl rfl⟩

/-- Without an input the block answers a place or advances one. -/
theorem goOn_eq (s : State) : goOn s = answerAt 0 s ∨ s.rejected = [] ∧ goOn s = advanceAt 0 s := by
  cases hr : s.rejected with
  | nil => exact .inr ⟨rfl, goOn_of_no_rejected hr⟩
  | cons x xs => exact .inl (by rw [goOn, hr]; rfl)

/-- Settles O13: with no input the tail of the inputs is again no input. -/
theorem stepKeepsConfigurationAndResponses : Obligations.StepKeepsConfigurationAndResponses := by
  unfold Obligations.StepKeepsConfigurationAndResponses
  intro s t h
  cases hin : s.inputs with
  | nil =>
    rw [step_of_no_input hin] at h
    show KeepsAndTakes s t []
    rw [← hin]
    rcases goOn_eq s with hgo | ⟨-, hgo⟩ <;> rw [hgo] at h
    · exact answerAt_keeps h
    · exact advanceAt_keeps h
  | cons input rest =>
    rw [step_of_input hin] at h
    exact take_keeps h

/-- Settles O50: the three ends of `advanceAt`. -/
theorem advanceTouchesNoOtherOperation : Obligations.AdvanceTouchesNoOtherOperation := by
  unfold Obligations.AdvanceTouchesNoOtherOperation
  intro s t k rest hin h
  rw [step_of_input hin] at h
  rcases advanceAt_next h with ⟨hk, rfl⟩ | ⟨o, o', hk, hrun, rfl⟩ | ⟨o, a, hk, -, hfin⟩
  · exact .inl ⟨hk, rfl⟩
  · exact .inr (.inl ⟨o, o', hk, advance_request hrun, rfl⟩)
  · obtain ⟨r, -, htag, rfl⟩ := finish_next _ _ hfin
    exact .inr (.inr ⟨o, r, hk, htag, rfl⟩)

end Sys2Proof.Machine
end

section
/-! PROOFS. The family `other`, operations in flight: the stages of an operation under its invariant, and the step that leads
from each to the next, the last to the answer of the whole operation (10 R26 to R28, 20 R50, R51, 44 R150). -/

namespace Sys2Proof.Machine

/-! ## A running sum -/

@[simp] theorem sumAt_c (pps : List Bits) (s c : Nat) : (sumAt pps s c).c = c := rfl

/-- A sum with columns left makes one column step. -/
theorem sumAdvance_sumAt_lt {o : Op} {pps : List Bits} {s t c : Nat} (h : c < t) :
    sumAdvance o pps s t (sumAt pps s c) = .running { o with sum := some (sumAt pps s (c + 1)) } := by
  rw [sumAdvance, sumAt_c, if_pos h, sumStep_sumAt]

/-- A sum at its top column has a bit emitted and is decoded. -/
theorem sumAdvance_sumAt_top {o : Op} {pps : List Bits} {s t : Nat} (h : s < t) :
    sumAdvance o pps s t (sumAt pps s t) =
      .running { o with result := some (decodeBits (cpa pps s t).res) } := by
  have hwf : (sumAt pps s t).res.wf = true := by
    rw [wf_iff_length_pos, ← cpa_eq, length_cpa_res]; omega
  rw [sumAdvance, sumAt_c, if_neg (Nat.lt_irrefl t), if_pos hwf, cpa_eq]

theorem stepInternally_of_ok {α : Type} {e : Except Info α} {a : α} {k : α → Op} (h : e = .ok a) :
    stepInternally e k = .running (k a) := by
  rw [h]; rfl

/-- What the invariants say of a running sum: it is the state before its column. -/
theorem eq_sumAt_of_sumLoop {pps : List Bits} {s t : Nat} {S : SumState} (hle : S.c ≤ t)
    (h : S = sumLoop pps s t S.c (sumStart s)) : S = sumAt pps s S.c :=
  h.trans (sumLoop_start hle)

/-! ## Stages of a multiplication -/

section
variable {r : Radix} {x y : Int} {boundary : Except Info Nat} {s t : Nat → Nat} {o : Op}

/-! While a value is undefined, so are those after it in data-flow order (10 R28). -/

theorem MulInv.undefined_after_sum (h : MulInv r x y boundary s t o) (hn : o.sum = none) :
    o.result = none :=
  Option.eq_none_iff_forall_ne_some.2 fun v hv => by
    obtain ⟨S, -, hS, -⟩ := h.result v hv
    simp [hn] at hS

theorem MulInv.undefined_after_pps (h : MulInv r x y boundary s t o) (hn : o.pps = none) :
    o.sum = none ∧ o.result = none :=
  have hsum : o.sum = none := Option.eq_none_iff_forall_ne_some.2 fun S hS => by
    obtain ⟨pps, -, hpps, -⟩ := h.sum S hS
    simp [hn] at hpps
  ⟨hsum, h.undefined_after_sum hsum⟩

theorem MulInv.undefined_after_digits (h : MulInv r x y boundary s t o) (hn : o.digits = none) :
    o.pps = none ∧ o.sum = none ∧ o.result = none :=
  have hpps : o.pps = none := Option.eq_none_iff_forall_ne_some.2 fun pps hpps => by
    obtain ⟨ds, -, hds, -⟩ := h.pps pps hpps
    simp [hn] at hds
  ⟨hpps, h.undefined_after_pps hpps⟩

theorem MulInv.undefined_after_Y (h : MulInv r x y boundary s t o) (hn : o.Y = none) :
    o.digits = none ∧ o.pps = none ∧ o.sum = none ∧ o.result = none :=
  have hds : o.digits = none := Option.eq_none_iff_forall_ne_some.2 fun ds hds => by
    obtain ⟨Y, hY, -⟩ := h.digits ds hds
    simp [hn] at hY
  ⟨hds, h.undefined_after_digits hds⟩

theorem MulInv.undefined_after_width (h : MulInv r x y boundary s t o) (hn : o.width = none) :
    o.Y = none ∧ o.digits = none ∧ o.pps = none ∧ o.sum = none ∧ o.result = none :=
  have hY : o.Y = none := Option.eq_none_iff_forall_ne_some.2 fun Y hY => by
    obtain ⟨w, hw, -⟩ := h.Y Y hY
    simp [hn] at hw
  ⟨hY, h.undefined_after_Y hY⟩

end

/-- The stages of a multiplication past its boundary checks: the values of its data flow are defined one after
the other, then the columns run from 0 up to `t`, then the result is decoded. -/
inductive MulStage (i : Instr) (w : Nat) (Y : Bits) (ds : List Int) (pps : List Bits) (s t : Nat) :
    Op → Prop
  | sized : MulStage i w Y ds pps s t { Op.start i with width := some w }
  | encoded : MulStage i w Y ds pps s t { Op.start i with width := some w, Y := some Y }
  | recoded : MulStage i w Y ds pps s t
      { Op.start i with width := some w, Y := some Y, digits := some ds }
  | multiplied : MulStage i w Y ds pps s t
      { Op.start i with width := some w, Y := some Y, digits := some ds, pps := some pps }
  | summing {c : Nat} (hc : c ≤ t) : MulStage i w Y ds pps s t
      { Op.start i with
        width := some w, Y := some Y, digits := some ds, pps := some pps, sum := some (sumAt pps s c) }
  | summed : MulStage i w Y ds pps s t
      { Op.start i with
        width := some w, Y := some Y, digits := some ds, pps := some pps, sum := some (sumAt pps s t)
        result := some (decodeBits (cpa pps s t).res) }

section
variable {r : Radix} {x y : Int} {boundary : Except Info Nat} {s t : Nat → Nat}

theorem MulInv.start (i : Instr) : MulInv r x y boundary s t (Op.start i) := by
  constructor <;> simp [Op.start]

theorem MulStage.inv {i : Instr} {w : Nat} {Y : Bits} {ds : List Int} {pps : List Bits} {o : Op}
    (hw : boundary = .ok w) (hflow : MulFlow r x y w Y ds pps)
    (h : MulStage i w Y ds pps (s w) (t w) o) : MulInv r x y boundary s t o := by
  obtain ⟨hY, hds, hpps, -, -⟩ := hflow
  cases h with
  | sized => constructor <;> simp [Op.start, hw]
  | encoded => constructor <;> simp [Op.start, hw, hY]
  | recoded => constructor <;> simp [Op.start, hw, hY, hds]
  | multiplied => constructor <;> simp [Op.start, hw, hY, hds, hpps]
  | summing hc => constructor <;> simp [hw, hY, hds, hpps, hc, sumLoop_start hc, Op.start]
  | summed => constructor <;> simp [hw, hY, hds, hpps, sumLoop_start (le_refl (t w)), cpa_eq]

/-- Under its invariant a multiplication is fresh, or past its boundary checks in one of the stages. -/
theorem MulInv.stage {o : Op} (h : MulInv r x y boundary s t o)
    (hb : ∀ w, boundary = .ok w → Workable r x y w) :
    o = Op.start o.request ∨ ∃ w Y ds pps, boundary = .ok w ∧ MulFlow r x y w Y ds pps ∧
      MulStage o.request w Y ds pps (s w) (t w) o := by
  obtain ⟨i, width, oY, ods, opps, sum, result⟩ := o
  cases width with
  | none =>
    obtain ⟨⟨⟩, ⟨⟩, ⟨⟩, ⟨⟩, ⟨⟩⟩ := h.undefined_after_width rfl
    exact .inl rfl
  | some w =>
    have hw := h.width w rfl
    obtain ⟨hdvd, hx, hy⟩ := hb w hw
    obtain ⟨Y, ds, pps, hflow⟩ := exists_mulFlow hdvd hx hy
    refine .inr ⟨w, Y, ds, pps, hw, hflow, ?_⟩
    cases oY with
    | none =>
      obtain ⟨⟨⟩, ⟨⟩, ⟨⟩, ⟨⟩⟩ := h.undefined_after_Y rfl
      exact .sized
    | some Y' =>
      obtain ⟨_, ⟨⟩, hY⟩ := h.Y Y' rfl
      obtain rfl : Y' = Y := Except.ok.inj (hY.symm.trans hflow.encoded)
      cases ods with
      | none =>
        obtain ⟨⟨⟩, ⟨⟩, ⟨⟩⟩ := h.undefined_after_digits rfl
        exact .encoded
      | some ds' =>
        obtain ⟨_, ⟨⟩, hds⟩ := h.digits ds' rfl
        obtain rfl : ds' = ds := Except.ok.inj (hds.symm.trans hflow.recoded)
        cases opps with
        | none =>
          obtain ⟨⟨⟩, ⟨⟩⟩ := h.undefined_after_pps rfl
          exact .recoded
        | some pps' =>
          obtain ⟨_, _, ⟨⟩, ⟨⟩, hpps⟩ := h.pps pps' rfl
          obtain rfl : pps' = pps := Except.ok.inj (hpps.symm.trans hflow.multiplied)
          cases sum with
          | none =>
            obtain ⟨⟩ := h.undefined_after_sum rfl
            exact .multiplied
          | some S =>
            obtain ⟨_, _, ⟨⟩, ⟨⟩, hc, hS⟩ := h.sum S rfl
            have hat := eq_sumAt_of_sumLoop hc hS
            cases result with
            | none => rw [hat]; exact .summing hc
            | some v =>
              obtain ⟨_, _, ⟨⟩, ⟨⟩, htop, rfl⟩ := h.result v rfl
              rw [htop] at hat
              have hres : S.res = (cpa pps' (s w) (t w)).res := by rw [cpa_eq, ← hat]
              rw [hres, hat]
              exact .summed

/-- What a multiplication answers in the end: an error of its boundary checks, or its sum at the working width
they allow. -/
def mulAnswer (r : Radix) (x y : Int) (boundary : Except Info Nat) (s t : Nat → Nat) : Answer :=
  orAnswer boundary fun w =>
    multiplyAt r x y w (fun pps => .ok (decodeBits (cpa pps (s w) (t w)).res)) (t w - s w)

/-- A step from each stage leads to the next, with one step less to go, or answers (10 R28, 44 R150). -/
theorem mulAdvance_of_stage {i : Instr} {w : Nat} {Y : Bits} {ds : List Int} {pps : List Bits} {o : Op}
    (hw : boundary = .ok w) (hflow : MulFlow r x y w Y ds pps) (hst : s w < t w)
    (h : MulStage i w Y ds pps (s w) (t w) o) :
    (∃ o', mulAdvance r x y boundary s t o = .running o' ∧ MulStage i w Y ds pps (s w) (t w) o' ∧
      mulStepsLeft boundary t o' + 1 = mulStepsLeft boundary t o) ∨
    (mulStepsLeft boundary t o = 1 ∧
      mulAdvance r x y boundary s t o = .answered (mulAnswer r x y boundary s t)) := by
  cases h with
  | sized => exact .inl ⟨_, stepInternally_of_ok hflow.encoded, .encoded, rfl⟩
  | encoded => exact .inl ⟨_, stepInternally_of_ok hflow.recoded, .recoded, rfl⟩
  | recoded => exact .inl ⟨_, stepInternally_of_ok hflow.multiplied, .multiplied, rfl⟩
  | multiplied =>
    refine .inl ⟨{ Op.start i with
      width := some w, Y := some Y, digits := some ds, pps := some pps, sum := some (sumAt pps (s w) 0) },
      ?_, .summing (Nat.zero_le _), rfl⟩
    rw [sumAt_zero]
    rfl
  | @summing c hc =>
    rcases hc.lt_or_eq with hlt | rfl
    · refine .inl ⟨_, sumAdvance_sumAt_lt hlt, .summing hlt, ?_⟩
      show t w - (c + 1) + 2 + 1 = t w - c + 2
      omega
    · refine .inl ⟨_, sumAdvance_sumAt_top hst, .summed, ?_⟩
      show 1 + 1 = t w - t w + 2
      omega
  | summed =>
    refine .inr ⟨rfl, ?_⟩
    rw [mulAnswer, hw, orAnswer_ok, hflow.multiplyAt_eq, internally_ok]
    rfl

/-- The first step of a multiplication makes its boundary checks: it answers their error, or defines the
working width. -/
theorem mulAdvance_start (i : Instr) (hb : ∀ w, boundary = .ok w → Workable r x y w) :
    (∃ o', mulAdvance r x y boundary s t (Op.start i) = .running o' ∧ MulInv r x y boundary s t o' ∧
      mulStepsLeft boundary t o' + 1 = mulStepsLeft boundary t (Op.start i)) ∨
    (mulStepsLeft boundary t (Op.start i) = 1 ∧
      mulAdvance r x y boundary s t (Op.start i) = .answered (mulAnswer r x y boundary s t)) := by
  cases hw : boundary with
  | error e => exact .inr ⟨rfl, rfl⟩
  | ok w =>
    obtain ⟨hdvd, hx, hy⟩ := hb w hw
    obtain ⟨Y, ds, pps, hflow⟩ := exists_mulFlow hdvd hx hy
    exact .inl ⟨_, rfl, MulStage.sized.inv rfl hflow, rfl⟩

/-- One step of a multiplication under its invariant: it keeps the invariant with one step less to go, or
answers as the whole multiplication does. -/
theorem mulAdvance_of_inv {o : Op} (hb : ∀ w, boundary = .ok w → Workable r x y w ∧ s w < t w)
    (h : MulInv r x y boundary s t o) :
    (∃ o', mulAdvance r x y boundary s t o = .running o' ∧ MulInv r x y boundary s t o' ∧
      mulStepsLeft boundary t o' + 1 = mulStepsLeft boundary t o) ∨
    (mulStepsLeft boundary t o = 1 ∧
      mulAdvance r x y boundary s t o = .answered (mulAnswer r x y boundary s t)) := by
  have hwork : ∀ w, boundary = .ok w → Workable r x y w := fun w hw => (hb w hw).1
  rcases h.stage hwork with hstart | ⟨w, Y, ds, pps, hw, hflow, hstage⟩
  · rw [hstart]
    exact mulAdvance_start o.request hwork
  · refine (mulAdvance_of_stage hw hflow (hb w hw).2 hstage).imp_left ?_
    rintro ⟨o', hrun, hstage', hsteps⟩
    exact ⟨o', hrun, hstage'.inv hw hflow, hsteps⟩

end

/-! ## Stages of a column sum -/

/-- The stages of a column sum past its check. -/
inductive CpaStage (i : Instr) (pps : List Bits) (s t : Nat) : Op → Prop
  | summing {c : Nat} (hc : c ≤ t) : CpaStage i pps s t { Op.start i with sum := some (sumAt pps s c) }
  | summed : CpaStage i pps s t
      { Op.start i with sum := some (sumAt pps s t), result := some (decodeBits (cpa pps s t).res) }

section
variable {pps : List Bits} {field : Int} {s t : Nat}

theorem CpaInv.start (i : Instr) : CpaInv pps field s t (Op.start i) := by
  constructor <;> simp [Op.start]

theorem CpaStage.inv {i : Instr} {o : Op} (hfield : 1 ≤ field) (h : CpaStage i pps s t o) :
    CpaInv pps field s t o := by
  cases h with
  | summing hc => constructor <;> simp [Op.start, hfield, hc, sumLoop_start hc]
  | summed => constructor <;> simp [Op.start, hfield, sumLoop_start (le_refl t), cpa_eq]

theorem CpaInv.result_none {o : Op} (h : CpaInv pps field s t o) (hn : o.sum = none) : o.result = none :=
  Option.eq_none_iff_forall_ne_some.2 fun v hv => by
    obtain ⟨S, hS, -⟩ := h.result v hv
    simp [hn] at hS

/-- Under its invariant a column sum is fresh, or past its check in one of the stages. -/
theorem CpaInv.stage {o : Op} (h : CpaInv pps field s t o) :
    o = Op.start o.request ∨ 1 ≤ field ∧ CpaStage o.request pps s t o := by
  obtain ⟨i, width, Y, ds, opps, sum, result⟩ := o
  obtain ⟨rfl, rfl, rfl, rfl⟩ : width = none ∧ Y = none ∧ ds = none ∧ opps = none := h.unused
  cases sum with
  | none =>
    obtain rfl : result = none := h.result_none rfl
    exact .inl rfl
  | some S =>
    obtain ⟨hfield, hc, hS⟩ := h.sum S rfl
    have hat := eq_sumAt_of_sumLoop hc hS
    refine .inr ⟨hfield, ?_⟩
    cases result with
    | none => rw [hat]; exact .summing hc
    | some v =>
      obtain ⟨_, ⟨⟩, htop, rfl⟩ := h.result v rfl
      rw [htop] at hat
      have hres : S.res = (cpa pps s t).res := by rw [cpa_eq, ← hat]
      rw [hres, hat]
      exact .summed

/-- What a column sum answers in the end: an error of its check, or the decoded sum. -/
def cpaAnswer (pps : List Bits) (field : Int) (s t : Nat) : Answer :=
  if field < 1 then .error (.arg .t field) else .ok (.int (decodeBits (cpa pps s t).res)) (some (t - s))

/-- One step of a column sum under its invariant. -/
theorem cpaAdvance_of_inv {o : Op} (hwf : pps.all Bits.wf = true) (hst : 1 ≤ field → s < t)
    (h : CpaInv pps field s t o) :
    (∃ o', cpaAdvance pps field s t o = .running o' ∧ CpaInv pps field s t o' ∧
      cpaStepsLeft field t o' + 1 = cpaStepsLeft field t o) ∨
    (cpaStepsLeft field t o = 1 ∧
      cpaAdvance pps field s t o = .answered (cpaAnswer pps field s t)) := by
  rcases h.stage with hstart | ⟨hfield, hstage⟩
  · rw [hstart]
    by_cases hfield : field < 1
    · refine .inr ⟨if_pos hfield, ?_⟩
      rw [cpaAnswer, if_pos hfield]
      exact (if_pos hwf).trans (if_pos hfield)
    · refine .inl ⟨{ Op.start o.request with sum := some (sumAt pps s 0) }, ?_,
        (CpaStage.summing (Nat.zero_le t)).inv (not_lt.1 hfield), (if_neg hfield).symm⟩
      rw [sumAt_zero]
      exact (if_pos hwf).trans (if_neg hfield)
  · generalize o.request = i at hstage
    cases hstage with
    | @summing c hc =>
      rcases hc.lt_or_eq with hlt | rfl
      · refine .inl ⟨_, sumAdvance_sumAt_lt hlt, (CpaStage.summing hlt).inv hfield, ?_⟩
        show t - (c + 1) + 2 + 1 = t - c + 2
        omega
      · refine .inl ⟨_, sumAdvance_sumAt_top (hst hfield), CpaStage.summed.inv hfield, ?_⟩
        show 1 + 1 = c - c + 2
        omega
    | summed =>
      refine .inr ⟨rfl, ?_⟩
      rw [cpaAnswer, if_neg (not_lt.2 hfield)]
      rfl

end

end Sys2Proof.Machine
end

section
/-! PROOFS. The family `other`, the invariant: one step of an operation in flight against its whole, what every step keeps,
and how the block ends with no input left (10 R26 to R30, 20 R50, R51, 44 R150, 60 R200, 70 R228). -/

namespace Sys2Proof.Machine

/-! ## One step of an operation of any request -/

section
variable {cfg : Config} {x y n : Int}

theorem fullBoundary_ok {w : Nat}
    (h : ((requirePorts cfg x y).map fun _ => workingLength cfg.radix x y) = .ok w) :
    Workable cfg.radix x y w ∧ 0 < 2 * w := by
  cases hp : requirePorts cfg x y with
  | error e => rw [hp] at h; cases h
  | ok u =>
    rw [hp] at h
    cases h
    have hwork := workable_workingLength cfg.radix x y
    have hpos := fits_pos hwork.2.1
    refine ⟨hwork, ?_⟩
    show 0 < 2 * workingLength cfg.radix x y
    omega

theorem truncBoundary_ok {w : Nat}
    (h : ((truncChecks cfg x y n).map fun _ => workingWidth cfg.radix n) = .ok w) :
    Workable cfg.radix x y w ∧ n.toNat < 2 * n.toNat := by
  cases hc : truncChecks cfg x y n with
  | error e => rw [hc] at h; cases h
  | ok u =>
    rw [hc] at h
    cases h
    obtain ⟨-, hn, hx, hy⟩ := truncChecks_ok_iff.1 hc
    exact ⟨workable_workingWidth cfg.radix hn hx hy, by omega⟩

/-- The stepped `MUL.FULL` ends in the answer of the whole (45 R172). -/
theorem mulAnswer_full (cfg : Config) (x y : Int) :
    mulAnswer cfg.radix x y ((requirePorts cfg x y).map fun _ => workingLength cfg.radix x y)
      (fun _ => 0) (fun bl => 2 * bl) = answerMulFull cfg x y := by
  cases hp : requirePorts cfg x y with
  | error e => rw [answerMulFull_of_error hp]; rfl
  | ok u =>
    have hpos := fits_pos (workable_workingLength cfg.radix x y).2.1
    have hsum (pps : List Bits) : cpaFull pps ((2 * workingLength cfg.radix x y : Nat) : Int) =
        .ok (decodeBits (cpa pps 0 (2 * workingLength cfg.radix x y)).res) :=
      cpaFull_ok_iff.2 ⟨by omega, by rw [Int.toNat_natCast]⟩
    simp only [answerMulFull, hp, orAnswer_ok, hsum]
    rfl

/-- The stepped `MUL.TRUNC` ends in the answer of the whole (45 R178). -/
theorem mulAnswer_trunc (cfg : Config) (x y n : Int) :
    mulAnswer cfg.radix x y ((truncChecks cfg x y n).map fun _ => workingWidth cfg.radix n)
      (fun _ => n.toNat) (fun _ => 2 * n.toNat) = answerMulTrunc cfg x y n := by
  cases hc : truncChecks cfg x y n with
  | error e => rw [answerMulTrunc_of_error hc]; rfl
  | ok u =>
    have hn := (truncChecks_ok_iff.1 hc).2.1
    have hsum (pps : List Bits) : cpaTrunc pps n =
        .ok (decodeBits (cpa pps n.toNat (2 * n.toNat)).res) := cpaTrunc_ok_iff.2 ⟨hn, rfl⟩
    have hwidth : 2 * n.toNat - n.toNat = n.toNat := by omega
    simp only [answerMulTrunc, hc, orAnswer_ok, hsum, mulAnswer, Except.map, hwidth]

theorem cpaAnswer_full {pps : List Bits} (hwf : pps.all Bits.wf = true) (t : Int) :
    cpaAnswer pps t 0 t.toNat = answerCpaFull pps t := by
  rw [answerCpaFull, if_pos hwf, cpaFull, cpaAnswer]
  split <;> rfl

theorem cpaAnswer_trunc {pps : List Bits} (hwf : pps.all Bits.wf = true) (n : Int) :
    cpaAnswer pps n n.toNat (2 * n.toNat) = answerCpaTrunc pps n := by
  have hwidth : 2 * n.toNat - n.toNat = n.toNat := by omega
  rw [answerCpaTrunc, if_pos hwf, cpaTrunc, cpaAnswer, hwidth]
  split <;> rfl

end

/-- A step of an operation either leaves it running, under its invariant and with one step less to go, or, with
one step to go, is the answer of the whole operation. -/
def Op.GoesOnOrAnswers (cfg : Config) (o : Op) : Prop :=
  (∃ o', o.advance cfg = .running o' ∧ o'.Inv cfg ∧ o'.stepsLeft cfg + 1 = o.stepsLeft cfg) ∨
    (o.stepsLeft cfg = 1 ∧ o.advance cfg = .answered (answerOf cfg o.request))

/-- It is enough to say so of the terms that a request selects in the definitions of the step, of the invariant
and of the steps left: a step keeps the request. -/
theorem Op.goesOnOrAnswers_of {cfg : Config} {o : Op} {result : OpStep} {Inv : Op → Prop} {left : Op → Nat}
    {a : Answer} {i : Instr} (h : o.Inv cfg) (hreq : o.request = i) (hadvance : o.advance cfg = result)
    (hinv : ∀ p : Op, p.request = i → (p.Inv cfg ↔ i.wf = true ∧ Inv p))
    (hleft : ∀ p : Op, p.request = i → p.stepsLeft cfg = left p) (hanswer : a = answerOf cfg i)
    (hstep : Inv o → (∃ o', result = .running o' ∧ Inv o' ∧ left o' + 1 = left o) ∨
      (left o = 1 ∧ result = .answered a)) : o.GoesOnOrAnswers cfg := by
  subst hanswer hreq
  obtain ⟨hwf, ho⟩ := (hinv o rfl).1 h
  rcases hstep ho with ⟨o', hrun, hinv', hsteps⟩ | ⟨hone, hans⟩
  · have hrun' := hadvance.trans hrun
    have hreq := advance_request hrun'
    exact .inl ⟨o', hrun', (hinv o' hreq).2 ⟨hwf, hinv'⟩, by rw [hleft o' hreq, hleft o rfl, hsteps]⟩
  · exact .inr ⟨(hleft o rfl).trans hone, hadvance.trans hans⟩

/-- An operation that keeps no transient state answers in its one step. -/
theorem Op.goesOnOrAnswers_of_one_step {cfg : Config} {o : Op}
    (hadvance : o.advance cfg = .answered (answerOf cfg o.request)) (hleft : o.stepsLeft cfg = 1) :
    o.GoesOnOrAnswers cfg := .inr ⟨hleft, hadvance⟩

/-- Every operation under its invariant goes on or answers (20 R50, R51). -/
theorem Op.Inv.goesOnOrAnswers {cfg : Config} {o : Op} (h : o.Inv cfg) : o.GoesOnOrAnswers cfg := by
  cases hreq : o.request with
  | mulFull tag x y n =>
    exact goesOnOrAnswers_of h hreq (by simp only [Op.advance, hreq])
      (fun p hp => by simp only [Op.Inv, hp]) (fun p hp => by simp only [Op.stepsLeft, hp])
      (mulAnswer_full cfg x y)
      (mulAdvance_of_inv fun _ => fullBoundary_ok)
  | mulTrunc tag x y n =>
    exact goesOnOrAnswers_of h hreq (by simp only [Op.advance, hreq])
      (fun p hp => by simp only [Op.Inv, hp]) (fun p hp => by simp only [Op.stepsLeft, hp])
      (mulAnswer_trunc cfg x y n)
      (mulAdvance_of_inv fun _ => truncBoundary_ok)
  | cpaFull tag pps t =>
    have hpps : pps.all Bits.wf = true := by have := h.1; rwa [hreq] at this
    exact goesOnOrAnswers_of h hreq (by simp only [Op.advance, hreq])
      (fun p hp => by simp only [Op.Inv, hp]) (fun p hp => by simp only [Op.stepsLeft, hp])
      (cpaAnswer_full hpps t)
      (cpaAdvance_of_inv hpps fun ht => by omega)
  | cpaTrunc tag pps t =>
    have hpps : pps.all Bits.wf = true := by have := h.1; rwa [hreq] at this
    exact goesOnOrAnswers_of h hreq (by simp only [Op.advance, hreq])
      (fun p hp => by simp only [Op.Inv, hp]) (fun p hp => by simp only [Op.stepsLeft, hp])
      (cpaAnswer_trunc hpps t)
      (cpaAdvance_of_inv hpps fun ht => by omega)
  | bvEncode tag v w =>
    exact goesOnOrAnswers_of_one_step (by simp only [Op.advance, hreq]; rfl)
      (by simp only [Op.stepsLeft, hreq])
  | bvDecode tag B =>
    exact goesOnOrAnswers_of_one_step (by simp only [Op.advance, hreq]; rfl)
      (by simp only [Op.stepsLeft, hreq])
  | boothDigits tag B =>
    exact goesOnOrAnswers_of_one_step (by simp only [Op.advance, hreq]; rfl)
      (by simp only [Op.stepsLeft, hreq])
  | ppGen tag x d i rw =>
    exact goesOnOrAnswers_of_one_step (by simp only [Op.advance, hreq]; rfl)
      (by simp only [Op.stepsLeft, hreq])

/-- An advanced place under the invariant: its operation goes on, or its whole request is run without it. -/
theorem advanceAt_of_inv {s : State} {k : Nat} {o : Op} (hk : s.inFlight[k]? = some o) (ho : o.Inv s.cfg) :
    (∃ o', o'.request = o.request ∧ o'.Inv s.cfg ∧ o'.stepsLeft s.cfg + 1 = o.stepsLeft s.cfg ∧
      advanceAt k s = .next { s with inFlight := s.inFlight.set k o' }) ∨
    (o.stepsLeft s.cfg = 1 ∧
      advanceAt k s = exec o.request { s with inFlight := s.inFlight.eraseIdx k }) := by
  rcases ho.goesOnOrAnswers with ⟨o', hrun, hinv, hsteps⟩ | ⟨hone, hans⟩
  · refine .inl ⟨o', advance_request hrun, hinv, hsteps, ?_⟩
    simp only [advanceAt, hk, hrun]
  · refine .inr ⟨hone, ?_⟩
    simp only [advanceAt, hk, hans, exec_eq_finish]

/-- The operation at a place of a state under the invariant meets its own. -/
theorem State.Inv.getElem? {s : State} {k : Nat} {o : Op} (h : s.Inv) (hk : s.inFlight[k]? = some o) :
    o.Inv s.cfg := h.inFlight o (List.mem_of_getElem? hk)

theorem State.Inv.head {s : State} {o : Op} {os : List Op} (h : s.Inv) (hfl : s.inFlight = o :: os) :
    o.Inv s.cfg := h.inFlight o (hfl ▸ List.mem_cons_self)

/-- Settles O51: `advanceAt_of_inv` once the input is taken. -/
theorem steppedOperationAnswersAsTheWhole : Obligations.SteppedOperationAnswersAsTheWhole := by
  unfold Obligations.SteppedOperationAnswersAsTheWhole
  intro s k rest o hs hin hk
  rw [step_of_input hin]
  exact advanceAt_of_inv (s := { s with inputs := rest }) hk (hs.getElem? hk)

/-! ## Every step keeps the invariant and none faults -/

/-- An outcome that is no fault, and whose next state meets the invariant. -/
def Safe : Host.Outcome State Fault Refusal → Prop
  | .next s => s.Inv
  | .fault _ => False
  | .refused _ => True

section
variable {s : State}

theorem State.Inv.returning (h : s.Inv) {r : Response} (hr : r.wf = true) : (s.returning r).Inv :=
  ⟨h.cfg, h.inFlight, List.forall_mem_append.2 ⟨h.responses, List.forall_mem_singleton.2 hr⟩⟩

theorem State.Inv.raise (h : s.Inv) (tag : Tag) (e : Info) : (raise tag e s).Inv :=
  h.returning (errorResponse_wf tag e)

/-- The invariant says nothing of the inputs and of the requests to be answered, and of the operations in
flight one by one. -/
theorem State.Inv.replace (h : s.Inv) (inputs : List Input) (rejected : List Rejected) {ops : List Op}
    (hops : ∀ o ∈ ops, o.Inv s.cfg) :
    State.Inv { s with inputs := inputs, rejected := rejected, inFlight := ops } :=
  ⟨h.cfg, hops, h.responses⟩

theorem State.Inv.forall_eraseIdx (h : s.Inv) (k : Nat) : ∀ o ∈ s.inFlight.eraseIdx k, o.Inv s.cfg :=
  fun o ho => h.inFlight o (List.mem_of_mem_eraseIdx ho)

theorem State.Inv.forall_set (h : s.Inv) (k : Nat) {o' : Op} (ho' : o'.Inv s.cfg) :
    ∀ o ∈ s.inFlight.set k o', o.Inv s.cfg := fun o ho =>
  (List.mem_or_eq_of_mem_set ho).elim (h.inFlight o) fun heq => heq ▸ ho'

theorem Op.start_inv (cfg : Config) {i : Instr} (h : i.wf = true) : (Op.start i).Inv cfg := by
  refine ⟨h, ?_⟩
  cases i with
  | mulFull tag x y n => exact MulInv.start _
  | mulTrunc tag x y n => exact MulInv.start _
  | cpaFull tag pps t => exact CpaInv.start _
  | cpaTrunc tag pps t => exact CpaInv.start _
  | bvEncode tag v w => rfl
  | bvDecode tag B => rfl
  | boothDigits tag B => rfl
  | ppGen tag x d i rw => rfl

theorem exec_safe (h : s.Inv) {i : Instr} (hwf : i.wf = true) : Safe (exec i s) := by
  obtain ⟨r, -, -, hr, hexec⟩ := exec_of_wf hwf s
  rw [hexec]
  exact h.returning hr

/-- A request is accepted safely when every instruction that can be written is run safely. -/
theorem accept_safe {iface : Interface} {r : Request} {run : Instr → Host.Outcome State Fault Refusal}
    {reject : FnCode → Host.Outcome State Fault Refusal} (hrun : ∀ i, i.wf = true → Safe (run i))
    (hreject : ∀ fn, Safe (reject fn)) : Safe (accept iface r run reject) := by
  cases hd : decode iface r with
  | ok i => rw [accept_of_decode hd]; exact hrun i (wf_of_decode hd)
  | error why =>
    cases why with
    | illegalOp fn => simp only [accept, hd]; exact hreject fn
    | formatMismatch fn found => rw [accept_of_malformed hd (by simp)]; trivial
    | emptyBitVector fn => rw [accept_of_malformed hd (by simp)]; trivial

theorem advanceAt_safe (h : s.Inv) (k : Nat) : Safe (advanceAt k s) := by
  cases hk : s.inFlight[k]? with
  | none => simp only [advanceAt, hk]; exact h
  | some o =>
    have ho := h.getElem? hk
    rcases advanceAt_of_inv hk ho with ⟨o', -, hinv, -, hnext⟩ | ⟨-, hexec⟩
    · rw [hnext]
      exact h.replace s.inputs s.rejected (h.forall_set k hinv)
    · rw [hexec]
      exact exec_safe (h.replace s.inputs s.rejected (h.forall_eraseIdx k)) ho.1

theorem answerAt_safe (h : s.Inv) (k : Nat) : Safe (answerAt k s) := by
  rcases answerAt_eq (s := s) k with ⟨-, hnone⟩ | ⟨x, -, hsome⟩
  · rw [hnone]; exact h
  · rw [hsome]; exact (h.replace s.inputs (s.rejected.eraseIdx k) h.inFlight).raise _ _

theorem take_safe (h : s.Inv) (input : Input) : Safe (take input s) := by
  cases input with
  | request iface r => exact accept_safe (fun i => exec_safe h) fun fn => h.raise _ _
  | launch iface r =>
    exact accept_safe
      (fun i hi => h.replace s.inputs s.rejected (List.forall_mem_append.2
        ⟨h.inFlight, List.forall_mem_singleton.2 (Op.start_inv s.cfg hi)⟩))
      fun fn => h.replace s.inputs _ h.inFlight
  | advance k => exact advanceAt_safe h k
  | answer k => exact answerAt_safe h k
  | reset => exact h.replace s.inputs [] (List.forall_mem_nil _)

/-- Every step from a state that meets the invariant is safe. -/
theorem step_safe (h : s.Inv) : Safe (step s) := by
  cases hin : s.inputs with
  | nil =>
    rw [step_of_no_input hin]
    rcases goOn_eq s with hgo | ⟨-, hgo⟩ <;> rw [hgo]
    · exact answerAt_safe h 0
    · exact advanceAt_safe h 0
  | cons input rest =>
    rw [step_of_input hin]
    exact take_safe (h.replace rest s.rejected h.inFlight) input

end

/-- Settles O54: a safe outcome's next state meets the invariant. -/
theorem stepKeepsTheInvariant : Obligations.StepKeepsTheInvariant := by
  unfold Obligations.StepKeepsTheInvariant
  intro s t hs hstep
  have hsafe := step_safe hs
  rw [hstep] at hsafe
  exact hsafe

/-- Settles O55: a safe outcome is no fault. -/
theorem noStepFaultsUnderTheInvariant : Obligations.NoStepFaultsUnderTheInvariant := by
  unfold Obligations.NoStepFaultsUnderTheInvariant
  intro s f hs hstep
  have hsafe := step_safe hs
  rw [hstep] at hsafe
  exact hsafe

/-! ## Runs -/

theorem runSteps_succ_of_next {s t : State} (h : step s = .next t) (k : Nat) :
    runSteps (k + 1) s = runSteps k t := by
  rw [runSteps, h]

theorem runSteps_one (s : State) : runSteps 1 s = step s := by
  rw [runSteps]
  cases step s <;> rfl

theorem Op.Inv.stepsLeft_ne_zero {cfg : Config} {o : Op} (h : o.Inv cfg) : o.stepsLeft cfg ≠ 0 := by
  rcases h.goesOnOrAnswers with ⟨o', -, -, hsteps⟩ | ⟨hone, -⟩ <;> omega

/-- Advanced as often as it has steps left, an operation ends in the whole of its request, by induction on the
steps left. -/
theorem runSteps_advance {k n : Nat} {rest : List Input} {s : State} {o : Op} (hs : s.Inv)
    (hk : s.inFlight[k]? = some o) (hn : o.stepsLeft s.cfg = n)
    (hin : s.inputs = List.replicate n (.advance k) ++ rest) :
    runSteps n s = exec o.request { s with inputs := rest, inFlight := s.inFlight.eraseIdx k } := by
  induction n generalizing s o with
  | zero => exact absurd hn (hs.getElem? hk).stepsLeft_ne_zero
  | succ n ih =>
    rw [List.replicate_succ, List.cons_append] at hin
    have hklt := (List.getElem?_eq_some_iff.1 hk).1
    rcases advanceAt_of_inv (s := { s with inputs := List.replicate n (.advance k) ++ rest }) hk
      (hs.getElem? hk) with ⟨o', hreq, hinv, hsteps, hnext⟩ | ⟨hone, hexec⟩
    · have hrun := ih (o := o') (hs.replace (List.replicate n (.advance k) ++ rest) s.rejected (hs.forall_set k hinv))
        (List.getElem?_set_self hklt) (Nat.succ.inj (hsteps.trans hn)) rfl
      rw [runSteps_succ_of_next ((step_of_input hin).trans hnext), hrun, hreq]
      simp only [List.eraseIdx_set_eq]
    · obtain rfl : n = 0 := Nat.succ.inj (hn.symm.trans hone)
      rw [runSteps_one, step_of_input hin]
      exact hexec

/-- Settles O52: the counts of a fresh multiplication are its steps left by definition, its checks passed. -/
theorem operationInFlightAnswersInItsStepsLeft : Obligations.OperationInFlightAnswersInItsStepsLeft := by
  unfold Obligations.OperationInFlightAnswersInItsStepsLeft
  refine ⟨fun s k rest o hs hk hin => runSteps_advance hs hk rfl hin, fun r tag x y n => ⟨rfl, ?_⟩⟩
  intro hn hx hy
  have hchecks : truncChecks ⟨r, none⟩ x y n = .ok () := truncChecks_ok_iff.2 ⟨rfl, hn, hx, hy⟩
  simp only [Op.stepsLeft, Op.start, hchecks]
  rfl

/-- The response to a launched request without a function (60 R191). -/
def Rejected.response (x : Rejected) : Response := errorResponse x.tag (.illegalOp x.fn)

/-- With no input left, the requests that wait are answered one a step, the oldest first (log 18). -/
theorem runSteps_answer {s : State} (hin : s.inputs = []) (n : Nat) :
    runSteps (s.rejected.length + n) s = runSteps n
      { s with rejected := [], responses := s.responses ++ s.rejected.map Rejected.response } := by
  induction hr : s.rejected generalizing s with
  | nil =>
    obtain ⟨cfg, inputs, inFlight, rejected, responses⟩ := s
    obtain rfl : rejected = [] := hr
    simp
  | cons x xs ih =>
    have hstep := (step_of_no_input hin).trans (goOn_of_rejected hr)
    have hrest := ih (s := raise x.tag (.illegalOp x.fn) { s with rejected := xs }) hin rfl
    rw [List.length_cons, Nat.add_right_comm, runSteps_succ_of_next hstep, hrest]
    simp [Rejected.response]

/-- Then the oldest operation in flight runs until it is answered. -/
theorem runSteps_oldest {s : State} {o : Op} {os : List Op} (hs : s.Inv) (hin : s.inputs = [])
    (hrej : s.rejected = []) (hfl : s.inFlight = o :: os) (n : Nat) :
    ∃ r, (answerOf s.cfg o.request).response o.request.tag = some r ∧ r.wf = true ∧
      runSteps (o.stepsLeft s.cfg + n) s = runSteps n ({ s with inFlight := os }.returning r) := by
  induction hsteps : o.stepsLeft s.cfg generalizing s o with
  | zero => exact absurd hsteps (hs.head hfl).stepsLeft_ne_zero
  | succ m ih =>
    have ho := hs.head hfl
    have hk : s.inFlight[0]? = some o := by rw [hfl]; rfl
    have hgo := (step_of_no_input hin).trans (goOn_of_no_rejected hrej)
    rcases advanceAt_of_inv hk ho with ⟨o', hreq, hinv, hleft, hnext⟩ | ⟨hone, hexec⟩
    · rw [hfl, List.set_cons_zero] at hnext
      have hops : ∀ p ∈ o' :: os, p.Inv s.cfg := by simpa [hfl] using hs.forall_set 0 hinv
      obtain ⟨r, hr, hwf, hrun⟩ := ih (hs.replace s.inputs s.rejected hops) hin hrej rfl
        (Nat.succ.inj (hleft.trans hsteps))
      exact ⟨r, hreq ▸ hr, hwf, by rw [Nat.add_right_comm, runSteps_succ_of_next (hgo.trans hnext), hrun]⟩
    · obtain ⟨r, hr, -, hwf, hret⟩ := exec_of_wf ho.1 { s with inFlight := s.inFlight.eraseIdx 0 }
      obtain rfl : m = 0 := Nat.succ.inj (hsteps.symm.trans hone)
      rw [hfl, List.eraseIdx_cons_zero] at hexec hret
      exact ⟨r, hr, hwf, by
        rw [Nat.add_right_comm, runSteps_succ_of_next (hgo.trans (hexec.trans hret)), Nat.zero_add]⟩

/-- With no input left and nothing waiting, every operation in flight is answered as the whole of its request,
in their order. -/
theorem runSteps_inFlight {s : State} (hs : s.Inv) (hin : s.inputs = []) (hrej : s.rejected = []) :
    ∃ rs, List.Forall₂
        (fun o r => (answerOf s.cfg o.request).response o.request.tag = some r) s.inFlight rs ∧
      runSteps (s.inFlight.map (fun o => o.stepsLeft s.cfg)).sum s =
        .next { s with inFlight := [], responses := s.responses ++ rs } := by
  induction hfl : s.inFlight generalizing s with
  | nil =>
    obtain ⟨cfg, inputs, inFlight, rejected, responses⟩ := s
    obtain rfl : inFlight = [] := hfl
    exact ⟨[], .nil, by simp [runSteps]⟩
  | cons o os ih =>
    obtain ⟨r, hr, hwf, hrun⟩ := runSteps_oldest hs hin hrej hfl
      (os.map (fun o => o.stepsLeft s.cfg)).sum
    have hos : ∀ p ∈ os, p.Inv s.cfg := fun p hp => hs.inFlight p (hfl ▸ List.mem_cons_of_mem o hp)
    obtain ⟨rs, hrs, hrest⟩ := ih (s := { s with inFlight := os }.returning r)
      ((hs.replace s.inputs s.rejected hos).returning hwf) hin hrej rfl
    refine ⟨r :: rs, .cons hr hrs, ?_⟩
    rw [List.map_cons, List.sum_cons, hrun]
    refine hrest.trans ?_
    simp

theorem Answer.tag_of_response {a : Answer} {tag : Tag} {r : Response} (h : a.response tag = some r) :
    r.tag = tag := by
  cases a <;> cases h <;> rfl

/-- Settles O59: first what waits is answered, then what is in flight. -/
theorem acceptedRequestsAreAnsweredWithoutInputs : Obligations.AcceptedRequestsAreAnsweredWithoutInputs := by
  unfold Obligations.AcceptedRequestsAreAnsweredWithoutInputs
  intro s hs hin
  have hanswered : ∀ r ∈ s.rejected.map Rejected.response, r.wf = true :=
    List.forall_mem_map.2 fun x _ => errorResponse_wf _ _
  obtain ⟨rs, hrs, hrun⟩ := runSteps_inFlight
    (s := { s with rejected := [], responses := s.responses ++ s.rejected.map Rejected.response })
    ⟨hs.cfg, hs.inFlight, List.forall_mem_append.2 ⟨hs.responses, hanswered⟩⟩ hin rfl
  obtain ⟨hlen, hget⟩ := List.forall₂_iff_get.1 hrs
  refine ⟨s.rejected.map Rejected.response ++ rs, ?_, by simp [hlen], fun k x hk => ?_, fun k o hk => ?_⟩
  · rw [runSteps_answer hin]
    refine hrun.trans ?_
    simp [hin]
  · rw [List.getElem?_append_left (by simpa using (List.getElem?_eq_some_iff.1 hk).1), List.getElem?_map, hk]
    rfl
  · obtain ⟨hklt, rfl⟩ := List.getElem?_eq_some_iff.1 hk
    have hr := hget k hklt (hlen ▸ hklt)
    refine ⟨_, ?_, Answer.tag_of_response hr, ?_⟩
    · rw [List.getElem?_append_right (by simp), List.length_map, Nat.add_sub_cancel_left]
      exact List.getElem?_eq_getElem _
    · exact (exec_eq_finish _ _).trans (finish_of_response _ (State.idle s.cfg) hr)

/-! ## Bounds and faults of a running operation -/

/-- The running sum of an operation under its invariant is the state before its column, of the operation's own
summands and split. -/
theorem Op.Inv.sum_eq {cfg : Config} {o : Op} {S : SumState} (h : o.Inv cfg) (hS : o.sum = some S) :
    S.c ≤ o.top ∧ S = sumAt o.summands o.split S.c := by
  obtain ⟨-, hinv⟩ := h
  have hnot {p : Prop} (hstart : o = Op.start o.request) : p := by
    rw [hstart] at hS; cases hS
  unfold Op.top Op.split Op.summands
  cases hreq : o.request with
  | mulFull tag x y n =>
    simp only [hreq] at hinv ⊢
    obtain ⟨pps, w, hpps, hw, hc, hloop⟩ := hinv.sum S hS
    rw [hw, hpps]
    exact ⟨hc, eq_sumAt_of_sumLoop hc hloop⟩
  | mulTrunc tag x y n =>
    simp only [hreq] at hinv ⊢
    obtain ⟨pps, w, hpps, hw, hc, hloop⟩ := hinv.sum S hS
    rw [hpps]
    exact ⟨hc, eq_sumAt_of_sumLoop hc hloop⟩
  | cpaFull tag pps t =>
    simp only [hreq] at hinv ⊢
    obtain ⟨-, hc, hloop⟩ := hinv.sum S hS
    exact ⟨hc, eq_sumAt_of_sumLoop hc hloop⟩
  | cpaTrunc tag pps t =>
    simp only [hreq] at hinv ⊢
    obtain ⟨-, hc, hloop⟩ := hinv.sum S hS
    exact ⟨hc, eq_sumAt_of_sumLoop hc hloop⟩
  | bvEncode tag v w => simp only [hreq] at hinv; exact hnot (hreq ▸ hinv)
  | bvDecode tag B => simp only [hreq] at hinv; exact hnot (hreq ▸ hinv)
  | boothDigits tag B => simp only [hreq] at hinv; exact hnot (hreq ▸ hinv)
  | ppGen tag x d i rw => simp only [hreq] at hinv; exact hnot (hreq ▸ hinv)

theorem phaseAt_eq_high_iff (s c : Nat) : phaseAt s c = .HIGH ↔ s ≤ c := by
  unfold phaseAt; split <;> simp [*]

/-- Settles O56: the bounds are those of the state before a column. -/
theorem sumInFlightStaysInBounds : Obligations.SumInFlightStaysInBounds := by
  unfold Obligations.SumInFlightStaysInBounds
  intro s o S hs ho hS
  obtain ⟨hc, hat⟩ := (hs.inFlight o ho).sum_eq hS
  rw [hat]
  exact ⟨hc, phaseAt_eq_high_iff _ _, lowBits_length _ _, carry_sumAt_le _ _ _⟩

/-- A multiplication that comes to a step which reads its working width stops when that is not defined
(10 R28). -/
theorem mulAdvance_of_width_none {r : Radix} {x y : Int} {boundary : Except Info Nat} {s t : Nat → Nat}
    {o : Op} (hw : o.width = none)
    (h : o.result ≠ none ∨ (o.sum ≠ none ∧ o.pps ≠ none) ∨
      (o.sum = none ∧ (o.pps ≠ none ∨ o.digits ≠ none))) :
    mulAdvance r x y boundary s t o = .answered (.fault (.undefinedTransient .width)) := by
  obtain ⟨i, width, Y, ds, pps, sum, result⟩ := o
  obtain rfl : width = none := hw
  cases result with
  | some v => rfl
  | none =>
    cases sum with
    | some S =>
      cases pps with
      | some pps => rfl
      | none => simp at h
    | none =>
      cases pps with
      | some pps => rfl
      | none =>
        cases ds with
        | some ds => rfl
        | none => simp at h

/-- A running sum of a multiplication stops when the partial products are not defined (10 R28). -/
theorem mulAdvance_of_pps_none {r : Radix} {x y : Int} {boundary : Except Info Nat} {s t : Nat → Nat}
    {o : Op} (hresult : o.result = none) (hsum : o.sum ≠ none) (hpps : o.pps = none) :
    mulAdvance r x y boundary s t o = .answered (.fault (.undefinedTransient .pps)) := by
  obtain ⟨S, hS⟩ := Option.ne_none_iff_exists'.1 hsum
  simp only [mulAdvance, hresult, hS, hpps, need]

/-- Settles O53: both multiplications step alike. -/
theorem undefinedTransientFaults : Obligations.UndefinedTransientFaults := by
  unfold Obligations.UndefinedTransientFaults
  intro cfg o tag x y n hreq
  rcases hreq with hreq | hreq <;> simp only [Op.advance, hreq]
  · exact ⟨mulAdvance_of_width_none, mulAdvance_of_pps_none⟩
  · exact ⟨mulAdvance_of_width_none, mulAdvance_of_pps_none⟩

end Sys2Proof.Machine
end

section
/-! PROOFS. The family `other`, the text of a request: a written line is read back as its request (30 R71, R72; log 13). -/

namespace Sys2Proof.Machine

/-! ## Blanks and trimming -/

/-- A text whose first character is no blank. -/
def StartsDark (p : List Char) : Prop := ∃ c q, p = c :: q ∧ isBlank c = false

/-- A text whose last character is no blank. -/
def EndsDark (p : List Char) : Prop := ∃ q c, p = q ++ [c] ∧ isBlank c = false

theorem StartsDark.append {p : List Char} (h : StartsDark p) (q : List Char) : StartsDark (p ++ q) := by
  obtain ⟨c, a, rfl, hc⟩ := h
  exact ⟨c, a ++ q, rfl, hc⟩

theorem EndsDark.append {p : List Char} (h : EndsDark p) (q : List Char) : EndsDark (q ++ p) := by
  obtain ⟨a, c, rfl, hc⟩ := h
  exact ⟨q ++ a, c, (List.append_assoc q a [c]).symm, hc⟩

theorem dropBlanks_of_startsDark {p : List Char} (h : StartsDark p) : dropBlanks p = p := by
  obtain ⟨c, q, rfl, hc⟩ := h
  simp [dropBlanks, hc]

theorem EndsDark.reverse {p : List Char} (h : EndsDark p) : StartsDark p.reverse := by
  obtain ⟨q, c, rfl, hc⟩ := h
  exact ⟨c, q.reverse, by simp, hc⟩

theorem trim_eq_self {p : List Char} (hs : StartsDark p) (he : EndsDark p) : trim p = p := by
  rw [trim, dropBlanks_of_startsDark hs, dropBlanks_of_startsDark he.reverse, List.reverse_reverse]

theorem trim_space_cons (p : List Char) : trim (' ' :: p) = trim p := rfl

/-! ## Cutting at commas -/

/-- Put a text in front of the first of several pieces. -/
def attach (p : List Char) (pieces : List (List Char)) : List (List Char) := pieces.modifyHead (p ++ ·)

@[simp] theorem attach_cons (p q : List Char) (qs : List (List Char)) :
    attach p (q :: qs) = (p ++ q) :: qs := rfl

theorem attach_nil (ps : List (List Char)) : attach [] ps = ps := by cases ps <;> rfl

theorem attach_attach (p q : List Char) (ps : List (List Char)) :
    attach p (attach q ps) = attach (p ++ q) ps := by
  cases ps with
  | nil => rfl
  | cons r rs => simp

/-- The depth of brackets after a character. -/
def depthAfter (depth : Nat) (c : Char) : Nat :=
  if c == '[' then depth + 1 else if c == ']' then depth - 1 else depth

theorem splitCommas_ne_nil (depth : Nat) (cs : List Char) : splitCommas depth cs ≠ [] := by
  cases cs with
  | nil => simp [splitCommas]
  | cons c cs =>
    rw [splitCommas]
    split
    · simp
    · dsimp only
      split <;> simp

/-- A character that is no comma, or stands inside a bracket, joins the first piece. -/
theorem splitCommas_cons {depth : Nat} {c : Char} (cs : List Char) (h : c ≠ ',' ∨ depth ≠ 0) :
    splitCommas depth (c :: cs) = attach [c] (splitCommas (depthAfter depth c) cs) := by
  have hcut : ¬ (c == ',' && depth == 0) = true := by
    rw [Bool.and_eq_true, beq_iff_eq, beq_iff_eq, not_and_or]
    exact h
  obtain ⟨q, qs, hq⟩ := List.exists_cons_of_ne_nil (splitCommas_ne_nil (depthAfter depth c) cs)
  rw [hq, splitCommas, if_neg hcut]
  simp only [depthAfter] at hq
  simp only [hq, attach_cons, List.singleton_append]

theorem splitCommas_comma (cs : List Char) : splitCommas 0 (',' :: cs) = [] :: splitCommas 0 cs := rfl

theorem depthAfter_of_no_bracket {c : Char} (depth : Nat) (hopen : c ≠ '[') (hclose : c ≠ ']') :
    depthAfter depth c = depth := by
  simp [depthAfter, hopen, hclose]

/-- A text without brackets stays in one piece when it has no comma, or stands inside a bracket. -/
theorem splitCommas_append {depth : Nat} {p : List Char} (rest : List Char)
    (hcomma : ∀ c ∈ p, c ≠ ',' ∨ depth ≠ 0) (hbracket : ∀ c ∈ p, c ≠ '[' ∧ c ≠ ']') :
    splitCommas depth (p ++ rest) = attach p (splitCommas depth rest) := by
  induction p with
  | nil => exact (attach_nil _).symm
  | cons c p ih =>
    rw [List.forall_mem_cons] at hcomma hbracket
    obtain ⟨hopen, hclose⟩ := hbracket.1
    rw [List.cons_append, splitCommas_cons _ hcomma.1, depthAfter_of_no_bracket depth hopen hclose,
      ih hcomma.2 hbracket.2, attach_attach, List.singleton_append]

/-- A text that a cut at commas leaves in one piece, whatever follows it. -/
def Uncut (p : List Char) : Prop := ∀ rest, splitCommas 0 (p ++ rest) = attach p (splitCommas 0 rest)

/-- A bracket shields the commas inside it. -/
theorem uncut_bracketed {p : List Char} (hbracket : ∀ c ∈ p, c ≠ '[' ∧ c ≠ ']') :
    Uncut ('[' :: p ++ [']']) := by
  intro rest
  have hopen : splitCommas 0 ('[' :: (p ++ ']' :: rest)) = attach ['['] (splitCommas 1 (p ++ ']' :: rest)) :=
    splitCommas_cons _ (.inl (by decide))
  have hclose : splitCommas 1 (']' :: rest) = attach [']'] (splitCommas 0 rest) :=
    splitCommas_cons _ (.inl (by decide))
  rw [List.cons_append, List.cons_append, List.append_assoc, List.singleton_append, hopen,
    splitCommas_append _ (fun _ _ => .inr one_ne_zero) hbracket, hclose, attach_attach, attach_attach]
  simp

/-- Joined pieces that a cut leaves whole are cut apart again; each but the first has the blank that the
writer put after its comma. -/
theorem splitCommas_joinCommas {p : List Char} {ps : List (List Char)} (h : ∀ q ∈ p :: ps, Uncut q) :
    splitCommas 0 (joinCommas (p :: ps)) = p :: ps.map (' ' :: ·) := by
  induction ps generalizing p with
  | nil =>
    have hp := h p List.mem_cons_self []
    rw [List.append_nil] at hp
    rw [joinCommas, hp]
    simp [splitCommas]
  | cons q qs ih =>
    rw [List.forall_mem_cons] at h
    have hspace : splitCommas 0 (' ' :: joinCommas (q :: qs)) =
        attach [' '] (splitCommas 0 (joinCommas (q :: qs))) := splitCommas_cons _ (.inl (by decide))
    rw [joinCommas, h.1, splitCommas_comma, hspace, ih h.2]
    · simp
    · simp

/-! ## What the writer writes -/

/-- A character of an integer or of a bit vector: no blank, and none that structures a line. -/
def isInk (c : Char) : Bool := !([' ', '\t', '\r', ';', ',', '[', ']'].contains c)

section
variable {c : Char} (h : isInk c = true)
include h

theorem isBlank_of_isInk : isBlank c = false := by
  simp [isInk] at h
  simp [isBlank, h]

theorem ne_of_isInk : c ≠ ';' ∧ c ≠ ',' ∧ c ≠ '[' ∧ c ≠ ']' := by
  simp [isInk] at h
  simp [h]

end

/-- A text that the reader takes from between two commas as it stands. -/
structure IsOperand (p : List Char) : Prop where
  starts : StartsDark p
  ends : EndsDark p
  uncut : Uncut p
  noComment : ';' ∉ p

theorem IsOperand.trim_eq {p : List Char} (h : IsOperand p) : trim p = p := trim_eq_self h.starts h.ends

theorem isOperand_of_isInk {p : List Char} (hne : p ≠ []) (h : ∀ c ∈ p, isInk c = true) : IsOperand p := by
  obtain ⟨c, q, hcons⟩ := List.exists_cons_of_ne_nil hne
  obtain ⟨a, d, hsnoc⟩ : ∃ a d, p = a ++ [d] := ⟨_, _, (List.dropLast_append_getLast hne).symm⟩
  refine ⟨⟨c, q, hcons, isBlank_of_isInk (h c (by simp [hcons]))⟩,
    ⟨a, d, hsnoc, isBlank_of_isInk (h d (by simp [hsnoc]))⟩, fun rest => ?_,
    fun hmem => (ne_of_isInk (h _ hmem)).1 rfl⟩
  refine splitCommas_append rest (fun c hc => .inl ?_) fun c hc => ?_
  · exact (ne_of_isInk (h c hc)).2.1
  · exact (ne_of_isInk (h c hc)).2.2

theorem mem_joinCommas {c : Char} {ps : List (List Char)} (h : c ∈ joinCommas ps) :
    c = ',' ∨ c = ' ' ∨ ∃ p ∈ ps, c ∈ p := by
  induction ps with
  | nil => simp [joinCommas] at h
  | cons p ps ih =>
    cases ps with
    | nil => exact .inr (.inr ⟨p, by simp, h⟩)
    | cons q qs =>
      simp only [joinCommas, List.mem_append, List.mem_cons] at h
      rcases h with h | h | h | h
      · exact .inr (.inr ⟨p, by simp, h⟩)
      · exact .inl h
      · exact .inr (.inl h)
      · refine (ih h).imp_right (Or.imp_right ?_)
        rintro ⟨a, ha, hc⟩
        exact ⟨a, List.mem_cons_of_mem p ha, hc⟩

theorem joinCommas_ends {p : List Char} {ps : List (List Char)} (h : ∀ q ∈ p :: ps, EndsDark q) :
    EndsDark (joinCommas (p :: ps)) := by
  induction ps generalizing p with
  | nil => exact h p List.mem_cons_self
  | cons q qs ih =>
    rw [List.forall_mem_cons] at h
    simpa [joinCommas] using ((ih h.2).append [',', ' ']).append p

/-! ## Integers -/

theorem digitChar_isInk : ∀ d < 10, isInk (digitChar d) = true := by decide

theorem digitChar_ne_x : ∀ d < 10, digitChar d ≠ 'x' ∧ digitChar d ≠ '-' := by decide

theorem digitValue_digitChar : ∀ d < 10, digitValue 10 (digitChar d) = some d := by decide

/-- Every character of a decimal number is a digit's. -/
theorem mem_decimalDigits {fuel n : Nat} {acc : List Char} {c : Char}
    (h : c ∈ decimalDigits fuel n acc) : c ∈ acc ∨ ∃ d < 10, c = digitChar d := by
  induction fuel generalizing n acc with
  | zero => exact .inl h
  | succ fuel ih =>
    rw [decimalDigits] at h
    split at h
    · next hn => exact (List.mem_cons.1 h).symm.imp_right fun hc => ⟨n, hn, hc⟩
    · rcases ih h with hacc | hdigit
      · exact (List.mem_cons.1 hacc).symm.imp_right fun hc => ⟨n % 10, Nat.mod_lt _ (by omega), hc⟩
      · exact .inr hdigit

/-- The digits written for a number are read back as it, whatever follows them. -/
theorem digitsValue_decimalDigits {fuel n : Nat} (acc : List Char) (h : n < 10 ^ fuel) :
    digitsValue 10 0 (decimalDigits fuel n acc) = digitsValue 10 n acc := by
  induction fuel generalizing n acc with
  | zero => simp [decimalDigits, Nat.lt_one_iff.1 h]
  | succ fuel ih =>
    rw [decimalDigits]
    split
    · next hn => simp [digitsValue, digitValue_digitChar n hn]
    · rw [ih _ (by rw [pow_succ] at h; omega), digitsValue, digitValue_digitChar _ (Nat.mod_lt _ (by omega))]
      simp [Nat.div_add_mod']

theorem decimalDigits_ne_nil {fuel n : Nat} {acc : List Char} (h : fuel ≠ 0 ∨ acc ≠ []) :
    decimalDigits fuel n acc ≠ [] := by
  induction fuel generalizing n acc with
  | zero => exact h.resolve_left (by simp)
  | succ fuel ih =>
    rw [decimalDigits]
    split
    · simp
    · exact ih (.inr (by simp))

/-- The decimal digits of a natural number, as the writer writes its magnitude. -/
def writeNatural (n : Nat) : List Char := decimalDigits (n.log2 + 1) n []

theorem writeNatural_ne_nil (n : Nat) : writeNatural n ≠ [] := decimalDigits_ne_nil (.inl (by simp))

theorem mem_writeNatural {n : Nat} {c : Char} (h : c ∈ writeNatural n) : ∃ d < 10, c = digitChar d :=
  (mem_decimalDigits h).resolve_left (by simp)

theorem writeInteger_eq (v : Int) :
    writeInteger v = if v < 0 then '-' :: writeNatural v.natAbs else writeNatural v.natAbs := rfl

/-- A number without an `x` is not taken for a hexadecimal one. -/
theorem parseNatural_of_no_x {cs : List Char} (h : 'x' ∉ cs) : parseNatural cs = parseDigits 10 cs := by
  unfold parseNatural
  split
  · simp at h
  · rfl

theorem parseNatural_writeNatural (n : Nat) : parseNatural (writeNatural n) = some n := by
  have hx : 'x' ∉ writeNatural n := fun hmem => by
    obtain ⟨d, hd, hc⟩ := mem_writeNatural hmem
    exact (digitChar_ne_x d hd).1 hc.symm
  have hlt : n < 10 ^ (n.log2 + 1) :=
    Nat.lt_log2_self.trans_le (Nat.pow_le_pow_left (by omega) _)
  rw [parseNatural_of_no_x hx, parseDigits, if_neg (by simp [writeNatural_ne_nil]), writeNatural,
    digitsValue_decimalDigits _ hlt]
  rfl

theorem parseInteger_of_no_minus {cs : List Char} (h : '-' ∉ cs) :
    parseInteger cs = (parseNatural cs).map fun n : Nat => (n : Int) := by
  unfold parseInteger
  split
  · simp at h
  · rfl

/-- A written integer is read back (30 R71). -/
theorem parseInteger_writeInteger (v : Int) : parseInteger (writeInteger v) = some v := by
  rw [writeInteger_eq]
  split
  · next hv =>
    rw [parseInteger, parseNatural_writeNatural, Option.map_some]
    exact congrArg some (by omega)
  · next hv =>
    have hminus : '-' ∉ writeNatural v.natAbs := fun hmem => by
      obtain ⟨d, hd, hc⟩ := mem_writeNatural hmem
      exact (digitChar_ne_x d hd).2 hc.symm
    rw [parseInteger_of_no_minus hminus, parseNatural_writeNatural, Option.map_some]
    exact congrArg some (by omega)

theorem isOperand_writeInteger (v : Int) : IsOperand (writeInteger v) := by
  have hink : ∀ c ∈ writeNatural v.natAbs, isInk c = true := fun c hc => by
    obtain ⟨d, hd, rfl⟩ := mem_writeNatural hc
    exact digitChar_isInk d hd
  rw [writeInteger_eq]
  split
  · exact isOperand_of_isInk (by simp) (List.forall_mem_cons.2 ⟨by decide, hink⟩)
  · exact isOperand_of_isInk (writeNatural_ne_nil _) hink

/-! ## Bit vectors and their lists -/

theorem parseBinary_map (B : List Bool) : parseBinary (B.map fun b => if b then '1' else '0') = some B := by
  induction B with
  | nil => rfl
  | cons b B ih =>
    rw [List.map_cons, parseBinary, ih]
    cases b <;> rfl

/-- A written bit vector with a bit is read back (30 R71). -/
theorem parseVector_writeVector {B : Bits} (h : B.wf = true) : parseVector (writeVector B) = some B := by
  have hne : B ≠ [] := List.ne_nil_of_length_pos ((wf_iff_length_pos B).1 h)
  show (if (B.reverse.map fun b => if b then '1' else '0').isEmpty then none
    else (parseBinary (B.reverse.map fun b => if b then '1' else '0')).map List.reverse) = some B
  rw [if_neg (by simpa using hne), parseBinary_map, Option.map_some, List.reverse_reverse]

theorem writeVector_isInk (B : Bits) : ∀ c ∈ writeVector B, isInk c = true := by
  have hbits : ∀ c ∈ B.reverse.map (fun b => if b then '1' else '0'), isInk c = true :=
    List.forall_mem_map.2 fun b _ => by cases b <;> decide
  exact List.forall_mem_cons.2 ⟨by decide, List.forall_mem_cons.2 ⟨by decide, hbits⟩⟩

theorem isOperand_writeVector (B : Bits) : IsOperand (writeVector B) :=
  isOperand_of_isInk (by simp [writeVector]) (writeVector_isInk B)

/-- Reading every piece of a list, when each piece is read back. -/
theorem parseAll_map {α : Type} {f : List Char → Option α} {write : α → List Char} {as : List α}
    (h : ∀ a ∈ as, f (write a) = some a) : parseAll f (as.map write) = some as := by
  induction as with
  | nil => rfl
  | cons a as ih =>
    rw [List.forall_mem_cons] at h
    rw [List.map_cons, parseAll, h.1, ih h.2]

theorem ne_structure_of_mem_joinCommas {pps : List Bits} :
    ∀ c ∈ joinCommas (pps.map writeVector), c ≠ ';' ∧ c ≠ '[' ∧ c ≠ ']' := by
  intro c hc
  rcases mem_joinCommas hc with rfl | rfl | ⟨p, hp, hcp⟩
  · decide
  · decide
  · obtain ⟨B, -, rfl⟩ := List.mem_map.1 hp
    obtain ⟨hsemi, -, hbracket⟩ := ne_of_isInk (writeVector_isInk B c hcp)
    exact ⟨hsemi, hbracket⟩

theorem isOperand_writeList (pps : List Bits) : IsOperand (writeList pps) := by
  refine ⟨⟨'[', _, rfl, by decide⟩, ⟨_, ']', rfl, by decide⟩,
    uncut_bracketed fun c hc => (ne_structure_of_mem_joinCommas c hc).2, fun hmem => ?_⟩
  simp only [writeList, List.cons_append, List.mem_cons, List.mem_append, List.not_mem_nil, or_false] at hmem
  rcases hmem with h | h | h
  · exact absurd h (by decide)
  · exact (ne_structure_of_mem_joinCommas _ h).1 rfl
  · exact absurd h (by decide)

/-- The text between the brackets is cut and read (30 R71). -/
theorem parseList_bracketed (p : List Char) :
    parseList ('[' :: p ++ [']']) =
      if (trim p).isEmpty then some []
      else parseAll (fun q => parseVector (trim q)) (splitCommas 0 (trim p)) := by
  simp only [List.cons_append, parseList, List.reverse_append, List.reverse_cons, List.reverse_nil,
    List.nil_append, List.reverse_reverse, List.isEmpty_iff]

/-- A written list of bit vectors is read back (30 R71). -/
theorem parseList_writeList {pps : List Bits} (h : pps.all Bits.wf = true) :
    parseList (writeList pps) = some pps := by
  rw [writeList, parseList_bracketed]
  cases pps with
  | nil => rfl
  | cons B pps =>
    have hop : ∀ p ∈ writeVector B :: pps.map writeVector, IsOperand p := by
      rw [← List.map_cons]
      exact List.forall_mem_map.2 fun C _ => isOperand_writeVector C
    have hstarts : StartsDark (joinCommas (writeVector B :: pps.map writeVector)) := by
      cases pps with
      | nil => exact (isOperand_writeVector B).starts
      | cons C pps => exact (isOperand_writeVector B).starts.append _
    have hread : ∀ C ∈ B :: pps, parseVector (trim (writeVector C)) = some C := fun C hC => by
      rw [(isOperand_writeVector C).trim_eq, parseVector_writeVector (List.all_eq_true.1 h C hC)]
    rw [List.map_cons, trim_eq_self hstarts (joinCommas_ends fun p hp => (hop p hp).ends),
      splitCommas_joinCommas fun p hp => (hop p hp).uncut, if_neg ?_]
    · rw [List.forall_mem_cons] at hread
      have hrest : parseAll (fun q => parseVector (trim q)) ((pps.map writeVector).map (' ' :: ·)) =
          some pps := by
        rw [List.map_map]
        exact parseAll_map fun C hC => (congrArg parseVector (trim_space_cons _)).trans (hread.2 C hC)
      rw [parseAll, hread.1, hrest]
    · obtain ⟨c, q, hq, -⟩ := hstarts
      simp [hq]

/-! ## Lines -/

theorem isOperand_of_mem_writeOperands (i : Instr) : ∀ p ∈ writeOperands i, IsOperand p := by
  cases i <;>
    simp [writeOperands, isOperand_writeInteger, isOperand_writeVector, isOperand_writeList]

theorem writeOperands_ne_nil (i : Instr) : writeOperands i ≠ [] := by
  cases i <;> simp [writeOperands]

/-- The operands of an instruction that can be written are read back as its fields. -/
theorem parseFields_writeOperands {i : Instr} (hwf : i.wf = true)
    (hn : ∀ t x y n, i = .mulFull t x y n → n = 0) :
    parseFields i.opcode (writeOperands i) = some i.fields := by
  cases i with
  | mulFull tag x y n =>
    obtain rfl : n = 0 := hn tag x y n rfl
    simp only [Instr.opcode, writeOperands, parseFields, parseInteger_writeInteger, Instr.fields]
  | mulTrunc tag x y n =>
    simp only [Instr.opcode, writeOperands, parseFields, parseInteger_writeInteger, Instr.fields]
  | bvEncode tag v w =>
    simp only [Instr.opcode, writeOperands, parseFields, parseInteger_writeInteger, Instr.fields]
  | ppGen tag x d i rw =>
    simp only [Instr.opcode, writeOperands, parseFields, parseInteger_writeInteger, Instr.fields]
  | bvDecode tag B =>
    simp only [Instr.opcode, writeOperands, parseFields, parseVector_writeVector hwf, Instr.fields,
      Option.map_some]
  | boothDigits tag B =>
    simp only [Instr.opcode, writeOperands, parseFields, parseVector_writeVector hwf, Instr.fields,
      Option.map_some]
  | cpaFull tag pps t =>
    simp only [Instr.opcode, writeOperands, parseFields, parseList_writeList hwf,
      parseInteger_writeInteger, Instr.fields]
  | cpaTrunc tag pps t =>
    simp only [Instr.opcode, writeOperands, parseFields, parseList_writeList hwf,
      parseInteger_writeInteger, Instr.fields]

theorem mnemonic_isInk (op : Opcode) : ∀ c ∈ op.mnemonic.toList, isInk c = true :=
  List.all_eq_true.1 (by cases op <;> rfl)

theorem mnemonic_ne_nil (op : Opcode) : op.mnemonic.toList ≠ [] := by
  cases op <;> decide

/-- No two functions have one mnemonic (30 R72). -/
theorem opcodeNamed_mnemonic (op : Opcode) : opcodeNamed op.mnemonic.toList = some op := by
  cases op <;> decide

theorem noComment_writeRequest (i : Instr) : ';' ∉ writeRequest i := by
  rw [writeRequest, List.mem_append, List.mem_cons, not_or, not_or]
  refine ⟨fun h => (ne_of_isInk (mnemonic_isInk _ _ h)).1 rfl, by decide, fun h => ?_⟩
  rcases mem_joinCommas h with h | h | ⟨p, hp, hc⟩
  · exact absurd h (by decide)
  · exact absurd h (by decide)
  · exact (isOperand_of_mem_writeOperands i p hp).noComment hc

theorem ne_comment_of_not_mem {p : List Char} (h : ';' ∉ p) : ∀ c ∈ p, (c != ';') = true :=
  fun _ hc => bne_iff_ne.2 (ne_of_mem_of_not_mem hc h)

/-- The line itself has no comment; one written after it is taken off (30 R71). -/
theorem stripComment_of_noComment {p : List Char} (h : ';' ∉ p) : stripComment p = p :=
  List.takeWhile_eq_self_iff.2 (ne_comment_of_not_mem h)

theorem stripComment_append {p : List Char} (h : ';' ∉ p) (comment : List Char) :
    stripComment (p ++ ';' :: comment) = p := by
  rw [stripComment, List.takeWhile_append_of_pos (ne_comment_of_not_mem h)]
  simp

theorem trim_writeRequest (i : Instr) : trim (writeRequest i) = writeRequest i := by
  have hname := isOperand_of_isInk (mnemonic_ne_nil i.opcode) (mnemonic_isInk i.opcode)
  obtain ⟨p, ps, hps⟩ := List.exists_cons_of_ne_nil (writeOperands_ne_nil i)
  have hends : EndsDark (joinCommas (writeOperands i)) := by
    rw [hps]
    exact joinCommas_ends fun q hq => (isOperand_of_mem_writeOperands i q (hps ▸ hq)).ends
  exact trim_eq_self (hname.starts.append _) ((hends.append [' ']).append _)

/-- The operands of a written line, cut at its commas and trimmed. -/
theorem operands_of_writeRequest (i : Instr) :
    (splitCommas 0 (' ' :: joinCommas (writeOperands i))).map trim = writeOperands i := by
  obtain ⟨p, ps, hps⟩ := List.exists_cons_of_ne_nil (writeOperands_ne_nil i)
  have hop := isOperand_of_mem_writeOperands i
  rw [hps] at hop ⊢
  rw [splitCommas_cons _ (.inl (by decide)), depthAfter_of_no_bracket _ (by decide) (by decide),
    splitCommas_joinCommas fun q hq => (hop q hq).uncut, attach_cons, List.singleton_append, ← List.map_cons,
    List.map_map]
  exact (List.map_congr_left fun q hq => (trim_space_cons q).trans (hop q hq).trim_eq).trans (List.map_id _)

/-- A text that is a written line once its comment is off is read as the line's request. -/
theorem parseRequest_of_strip {i : Instr} {line : List Char} (tag : Tag) (hwf : i.wf = true)
    (hn : ∀ t x y n, i = .mulFull t x y n → n = 0) (hline : stripComment line = writeRequest i) :
    parseRequest tag line = some { encode i with tag := tag } := by
  have hdark : ∀ c ∈ i.opcode.mnemonic.toList, (!isBlank c) = true := fun c hc => by
    rw [isBlank_of_isInk (mnemonic_isInk _ c hc)]; rfl
  have hname : (writeRequest i).takeWhile (fun c => !isBlank c) = i.opcode.mnemonic.toList := by
    rw [writeRequest, List.takeWhile_append_of_pos hdark]
    simp [isBlank]
  have hrest : (writeRequest i).dropWhile (fun c => !isBlank c) = ' ' :: joinCommas (writeOperands i) := by
    rw [writeRequest, List.dropWhile_append_of_pos hdark]
    simp [isBlank]
  unfold parseRequest
  simp only [hline, trim_writeRequest, hname, hrest, opcodeNamed_mnemonic, operands_of_writeRequest,
    parseFields_writeOperands hwf hn, Option.map_some]
  rfl

/-- Settles O4: with and without a comment, what is left of the line is the written one. -/
theorem writtenRequestReadsBack : Obligations.WrittenRequestReadsBack := by
  unfold Obligations.WrittenRequestReadsBack
  intro i tag comment hwf hn
  have hsemi := noComment_writeRequest i
  exact ⟨parseRequest_of_strip tag hwf hn (stripComment_of_noComment hsemi),
    parseRequest_of_strip tag hwf hn (stripComment_append hsemi comment)⟩

/-- Settles O5: the example lines are read by evaluation. -/
theorem syntaxExamplesRead : Obligations.SyntaxExamplesRead := by
  unfold Obligations.SyntaxExamplesRead
  decide

end Sys2Proof.Machine
end
